-- ==== Sys2Proof/Word.lean ====
section
/-! DEFINITION. The bit vectors of the block (00_scope.md R5, R7): raw words, register values, Gray codes. -/

namespace Sys2Proof

/-- One byte of the raw block's byte view (20_memory.md R27). -/
abbrev Byte := BitVec 8

/-- A raw word, and a channel mask: `W_WORD` = 32 bits (00_scope.md R5). -/
abbrev Word := BitVec 32

/-- A register value: `W_REG` = 16 bits (10_state.md R16, D19). -/
abbrev Reg := BitVec 16

/-- A 12-bit Gray code, or the 12-bit binary value it decodes to (41_gray_decoder.md R68). -/
abbrev Sample := BitVec 12

/-- A remapped value: 13 bits, because 4096 does not fit 12 (30_encoding.md R49, 90_conflicts.md C3). -/
abbrev Remapped := BitVec 13

/-- A chip count, 0 to 32 (10_state.md R14). -/
abbrev Count := BitVec 6

end Sys2Proof
end

