-- ==== Sys2Proof/Config.lean ====
section
/-! DEFINITION. What is fixed for the block: its parameters (00_scope.md R5, D17), the byte order of the byte view
(D6), the constants of the downstream context (48_downstream_context.md R96), and the one free value. -/

namespace Sys2Proof

/-- The two byte orders `BYTE_ORDER` can name (20_memory.md R31). -/
inductive ByteOrder where
  | little
  | big
deriving DecidableEq, Repr

namespace Config

/-- `N_WORDS`: words in a raw block (00_scope.md R5). -/
abbrev nWords : Nat := 30788

/-- `BLOCK_BYTES`: bytes in a raw block (00_scope.md R5). -/
abbrev blockBytes : Nat := 123152

/-- `DATA_OFFSET`: the offset of the first data word (00_scope.md R5). -/
abbrev dataOffset : Nat := 1

/-- `N_REG`: registers per chip (00_scope.md R5). -/
abbrev nReg : Nat := 1924

/-- `W_REG`: bits per register value, and rows per register (00_scope.md R5). -/
abbrev wReg : Nat := 16

/-- `N_DATA_WORDS` (00_scope.md R5). -/
abbrev nDataWords : Nat := 30784

/-- `W_WORD`: bits, and lanes, per raw word (00_scope.md R5). -/
abbrev wWord : Nat := 32

/-- `EXPECTED_CHIPS`: the expected population count of the mask (00_scope.md R5, D17). -/
abbrev expectedChips : Nat := 4

/-- `REMAP_ZERO_TO`: what a decoded 0 becomes (00_scope.md R5). -/
abbrev remapZeroTo : Remapped := 4096

/-- `REMAP_FROM`: the decoded value that becomes `REMAP_FROM_TO` (00_scope.md R5). -/
abbrev remapFrom : Sample := 4

/-- `REMAP_FROM_TO` (00_scope.md R5). -/
abbrev remapFromTo : Remapped := 0

/-- `BYTE_ORDER`: little-endian by decision D6 of the spec (20_memory.md R31; log 14). -/
abbrev byteOrder : ByteOrder := .little

/-- FREE VALUE (log 7): `RAWLEN`, a number of words, of a block whose byte length is not a multiple of 4.
The spec refuses such a block (20_memory.md R32) and `X_SIZE` records `RAWLEN` (60_exceptions.md R100); no rule
says what number of words that is. No body: nothing can be proved of its value. -/
opaque raggedRawLen : Nat → Nat

/-- `fixedNoise` of the downstream context (48_downstream_context.md R91, R96). -/
abbrev fixedNoise : Int := 10

/-- `fixedThreshold` of the downstream context (48_downstream_context.md R91, R96). -/
abbrev fixedThreshold : Int := 70

/-- `offset`, the main-frame offset of the downstream context (48_downstream_context.md R85, R96). -/
abbrev mainFrameOffset : Int := 8

/-- Time slices of the ring (48_downstream_context.md R96). -/
abbrev slices : Nat := 13

/-- Values per hit record (48_downstream_context.md R93). -/
abbrev recordLength : Nat := 17

/-- Chips per board (48_downstream_context.md R87, R96). -/
abbrev chipsPerBoard : Nat := 4

/-- Channels per gain: register positions of one gain in one slice (48_downstream_context.md R96). -/
abbrev channelsPerGain : Nat := 64

/-- The disconnected channel: chip index (the rank of the chip's lane, 10_state.md R15) and channel
(48_downstream_context.md R89, R96). -/
abbrev disconnected : Nat × Nat := (2, 60)

/-- Rows of a plane's geometry (48_downstream_context.md R94). -/
abbrev planeRows : Nat := 4

/-- Columns of a plane's geometry (48_downstream_context.md R94). -/
abbrev planeColumns : Nat := 64

end Config
end Sys2Proof
end

