-- ==== Sys2Proof/Syntax.lean ====
section
/-! DEFINITION. The nine operations of spec/opcode_table.json, the raw block, and the form in which an operation
is presented: what selects it and its operand (30_encoding.md R41, R55; 92_eei_decisions.md D1). -/

namespace Sys2Proof

/-- A raw block as the host hands it over (10_state.md R13, 20_memory.md R27): `size` bytes, of which `cells` lists
the bytes that are not 0, at strictly rising byte addresses. A byte below `size` that is not listed is 0 (log 5):
this is only how a block is written down, every content of every length can be written. -/
structure RawBlock where
  cells : List Host.Cell
  size : Nat
deriving DecidableEq, Repr

/-- One constructor per row of spec/opcode_table.json. -/
inductive Instr where
  /-- ECHO word, field `echo` (30_encoding.md R42). -/
  | echo (x : Word)
  /-- PLANE word, fields `lane_31` to `lane_0` (30_encoding.md R43). -/
  | plane (x : Word)
  /-- TAIL word, field `tail`, ignored (30_encoding.md R44). -/
  | tail (t : Word)
  /-- G2B, operand `g` (30_encoding.md R49). -/
  | g2b (g : Sample)
  /-- REMAP, operand `d` (30_encoding.md R49). -/
  | remap (d : Sample)
  /-- ADCREAD, operand a 16-bit register value (30_encoding.md R48). -/
  | adcread (r : Reg)
  /-- CONFIG, operand in ChannelMask format (30_encoding.md R45). -/
  | config (m : Word)
  /-- DECODE, operand one raw block (30_encoding.md R40). -/
  | decode (raw : RawBlock)
  /-- READ, operands chip index and register index (42_host_operations.md R78). -/
  | read (k i : Nat)
deriving DecidableEq, Repr

/-- The operations a caller chooses (30_encoding.md R55): the function-unit and host rows of the table. -/
inductive CallerOp where
  | g2b
  | remap
  | adcread
  | config
  | decode
  | read
deriving DecidableEq, Repr

/-- The three kinds of stream word (30_encoding.md R41). -/
inductive WordKind where
  | echo
  | plane
  | tail
deriving DecidableEq, Repr

/-- What selects an operation, the table's "select" column: the offset of a stream word, or the caller. -/
inductive Select where
  | offset (w : Nat)
  | caller (op : CallerOp)
deriving DecidableEq, Repr

/-- An operand as it is presented, before decoding. `bits` is the table's pattern read as one number with bit 0 its
least significant bit; DECODE and READ have no bit encoding (30_encoding.md R55). -/
inductive Operand where
  | bits (v : Nat)
  | block (raw : RawBlock)
  | index (k i : Nat)
deriving DecidableEq, Repr

/-- Why the decoder refuses what is presented. Each is SAFE: the spec gives such a thing no meaning. -/
inductive DecodeError where
  /-- A stream word at an offset the block does not have (30_encoding.md R41). -/
  | offsetOutsideBlock
  /-- More bits than the operation's port has (30_encoding.md R50: "cannot be presented"). -/
  | operandTooWide
  /-- An operand of another form than the operation takes. -/
  | wrongOperandForm
  /-- A block that is not written in its one canonical form (log 5). -/
  | blockNotCanonical
deriving DecidableEq, Repr

end Sys2Proof
end

