-- ==== Sys2Proof/WellFormed.lean ====
section
/-! DEFINITION. When an operation's operand is in its one form: the canonical form of a raw block (log 5). -/

namespace Sys2Proof

/-- The cells rise strictly from address `lo` on, and none holds 0, the value of an unlisted byte. -/
def sortedFrom : Nat → List Host.Cell → Bool
  | _, [] => true
  | lo, (a, v) :: rest => decide (lo ≤ a) && (v != 0) && sortedFrom (a + 1) rest

/-- Every listed address lies below `n`. -/
def cellsBelow (n : Nat) : List Host.Cell → Bool
  | [] => true
  | (a, _) :: rest => decide (a < n) && cellsBelow n rest

/-- The canonical form of memory: addresses strictly rising, no 0 listed. -/
def Memory.wf (m : List Host.Cell) : Bool := sortedFrom 0 m

/-- A raw block in its canonical form: canonical memory, inside the block. -/
def RawBlock.wf (b : RawBlock) : Bool := Memory.wf b.cells && cellsBelow b.size b.cells

/-- Every operand of every operation is legal (30_encoding.md R50); only a raw block has a form to check. -/
def Instr.wf : Instr → Bool
  | .echo _ => true
  | .plane _ => true
  | .tail _ => true
  | .g2b _ => true
  | .remap _ => true
  | .adcread _ => true
  | .config _ => true
  | .decode raw => raw.wf
  | .read _ _ => true

end Sys2Proof
end

