-- ==== Sys2Proof/Decode.lean ====
section
/-! DEFINITION. The decoder, total on everything that can be presented and refusing by name; the encoder; the kind
of a stream word by its offset (30_encoding.md R40 to R51, R55). -/

namespace Sys2Proof

/-- `kind(w)`: the offset alone decides (30_encoding.md R41); none past the end of the block. -/
def wordKind (w : Nat) : Option WordKind :=
  if w = 0 then some .echo
  else if w ≤ Config.nDataWords then some .plane
  else if w < Config.nWords then some .tail
  else none

/-- A bit pattern of `n` bits as a bit vector, or the refusal of one that is wider. -/
def bitsOf (n : Nat) : Operand → Except DecodeError (BitVec n)
  | .bits v => if v < 2 ^ n then .ok (BitVec.ofNat n v) else .error .operandTooWide
  | .block _ => .error .wrongOperandForm
  | .index _ _ => .error .wrongOperandForm

/-- A stream word of the given kind (30_encoding.md R42 to R44). -/
def decodeWord (k : WordKind) (x : Word) : Instr :=
  match k with
  | .echo => .echo x
  | .plane => .plane x
  | .tail => .tail x

/-- A raw block in canonical form is DECODE's operand; its length is checked by the run, not here (R56). -/
def decodeBlock : Operand → Except DecodeError Instr
  | .block raw => if raw.wf then .ok (.decode raw) else .error .blockNotCanonical
  | .bits _ => .error .wrongOperandForm
  | .index _ _ => .error .wrongOperandForm

/-- READ's operands are two natural numbers (42_host_operations.md R78). -/
def decodeIndex : Operand → Except DecodeError Instr
  | .index k i => .ok (.read k i)
  | .bits _ => .error .wrongOperandForm
  | .block _ => .error .wrongOperandForm

/-- The decoder: from what selects the operation and the operand presented, the operation or a named refusal. -/
def decodeOperation (sel : Select) (o : Operand) : Except DecodeError Instr :=
  match sel with
  | .offset w =>
    match wordKind w with
    | none => .error .offsetOutsideBlock
    | some k => (bitsOf 32 o).map (decodeWord k)
  | .caller .g2b => (bitsOf 12 o).map .g2b
  | .caller .remap => (bitsOf 12 o).map .remap
  | .caller .adcread => (bitsOf 16 o).map .adcread
  | .caller .config => (bitsOf 32 o).map .config
  | .caller .decode => decodeBlock o
  | .caller .read => decodeIndex o

/-- The encoder: the operand that presents an operation, by the table's patterns. -/
def encode : Instr → Operand
  | .echo x => .bits x.toNat
  | .plane x => .bits x.toNat
  | .tail t => .bits t.toNat
  | .g2b g => .bits g.toNat
  | .remap d => .bits d.toNat
  | .adcread r => .bits r.toNat
  | .config m => .bits m.toNat
  | .decode raw => .block raw
  | .read k i => .index k i

/-- What selects the operation, the table's "select" column. -/
def selects (sel : Select) : Instr → Bool
  | .echo _ => sel = .offset 0
  | .plane _ => match sel with
    | .offset w => decide (1 ≤ w ∧ w ≤ 30784)
    | .caller _ => false
  | .tail _ => match sel with
    | .offset w => decide (30785 ≤ w ∧ w ≤ 30787)
    | .caller _ => false
  | .g2b _ => sel = .caller .g2b
  | .remap _ => sel = .caller .remap
  | .adcread _ => sel = .caller .adcread
  | .config _ => sel = .caller .config
  | .decode _ => sel = .caller .decode
  | .read _ _ => sel = .caller .read

/-- What is presented for a bare pattern of `nbits` bits (log 10). No bit of a pattern selects its operation
(30_encoding.md R55), so its width alone decides: 32 bits are CONFIG's operand, the one 32-bit operation an instance
takes with nothing prepared (70_reset_and_hazards.md R118); 16 bits are ADCREAD's, 12 bits G2B's; no bits at all are
DECODE of the block of no words. -/
def tablePresentation (nbits w : Nat) : Option (CallerOp × Operand) :=
  match nbits with
  | 32 => some (.config, .bits w)
  | 16 => some (.adcread, .bits w)
  | 12 => some (.g2b, .bits w)
  | 0 => some (.decode, .block ⟨[], 0⟩)
  | _ => none

/-- The operation the decoder reads from a bare pattern (log 10). -/
def decodeTableWord (nbits w : Nat) : Option Instr :=
  match tablePresentation nbits w with
  | none => none
  | some (op, o) => (decodeOperation (.caller op) o).toOption

end Sys2Proof
end

