-- ==== Sys2Proof/Machine/State.lean ====
section
/-! DEFINITION. The state of one instance (10_state.md R10), what its reset leaves (R24), and the named reasons for
which a step stops. -/

namespace Sys2Proof.Machine

/-- One "ChipRegisterFile": exactly 1924 values of 16 bits (10_state.md R15, R16). -/
abbrev ChipFile := Vector Reg 1924

/-- `RUN` (10_state.md R19). -/
inductive RunStatus where
  /-- No run since reset. -/
  | idle
  /-- A run is in progress. -/
  | busy
  /-- The last run completed. -/
  | done
  /-- The last DECODE was refused for its size. -/
  | rejected
deriving DecidableEq, Repr

/-- The result a completed transaction returned to the host (D1; log 4). -/
inductive Reply where
  /-- No result: no transaction has completed since reset, or the last was CONFIG, which returns nothing. -/
  | nothing
  /-- DECODE returned success with this many register files, those of `crf` (42_host_operations.md R77). -/
  | files (n : Count)
  /-- READ's result (42_host_operations.md R78). -/
  | register (v : Reg)
  /-- G2B's result (41_gray_decoder.md R68). -/
  | binary (b : Sample)
  /-- The result of REMAP or ADCREAD (41_gray_decoder.md R71, R72). -/
  | remapped (v : Remapped)
deriving DecidableEq, Repr

/-- When a move of the host lands (log 3, 23). -/
inductive Arrival where
  /-- When no run is in progress: a DECODE is synchronous, the host goes on after it (42_host_operations.md R77). -/
  | afterRun
  /-- Even during a run, once `WP` has reached `w` (42_host_operations.md R79; 70_reset_and_hazards.md R116). -/
  | atOffset (w : Nat)
deriving DecidableEq, Repr

/-- A move of the host: a reset of the instance (70_reset_and_hazards.md R114) or an operation with the operand
presented for it (42_host_operations.md R76 to R79). -/
inductive HostMove where
  | reset
  | call (op : CallerOp) (operand : Operand)
deriving DecidableEq, Repr

/-- A move of the host and when it lands. -/
structure Request where
  arrival : Arrival
  move : HostMove
deriving DecidableEq, Repr

/-- The state of one instance. -/
structure State where
  /-- `MASK` (10_state.md R11). -/
  mask : Word
  /-- `MASK` has been written by CONFIG since reset (42_host_operations.md R77; log 2). -/
  maskWritten : Bool
  /-- `RAW` and `RAWLEN`, while a block is borrowed (10_state.md R13). -/
  raw : Option RawBlock
  /-- `NCH` (10_state.md R14). -/
  nch : Count
  /-- `CRF[k][i]` (10_state.md R15). -/
  crf : List ChipFile
  /-- `WP` (10_state.md R18). -/
  wp : Nat
  /-- `RUN` (10_state.md R19). -/
  run : RunStatus
  /-- `D_SIZE` (10_state.md R20). -/
  dSize : Bool
  /-- `D_COUNT` (10_state.md R20). -/
  dCount : Bool
  /-- `D_ECHO` (10_state.md R20). -/
  dEcho : Bool
  /-- The value `X_SIZE` recorded in this run, `RAWLEN` (60_exceptions.md R100, R101). -/
  sizeRecord : Option Nat
  /-- The value `X_COUNT` recorded in this run, the count found (60_exceptions.md R100, R101). -/
  countRecord : Option Count
  /-- The value `X_ECHO` recorded in this run, `RAW[0]` (60_exceptions.md R100, R101). -/
  echoRecord : Option Word
  /-- The host's moves still to come, oldest first: the MODEL's own field (log 3). -/
  requests : List Request
  /-- What the last completed transaction returned: the MODEL's own field (log 4). -/
  reply : Reply
deriving DecidableEq, Repr

/-- Why a step stops with a fault. Both are SAFE, and no state that a run reaches raises either (log 20). -/
inductive Fault where
  /-- Raised by the fetch of a raw word while no block is borrowed (10_state.md R13). SAFE. -/
  | noBlockBorrowed
  /-- Raised by the fetch of a raw word at an offset the borrowed block does not have: `RAW[w]` exists only for
  `w < RAWLEN` (00_scope.md R8, 20_memory.md R26). SAFE. -/
  | beyondBlock
deriving DecidableEq, Repr

/-- Why a step is refused. -/
inductive Refusal where
  /-- Raised by `exec` for an operation that has no meaning yet. SAFE. -/
  | notModelled (mnemonic : String)
  /-- Raised by CONFIG while `RUN = BUSY` (93_implementation_defined.md U3). SAFE: the host has no such move. -/
  | configWhileBusy
  /-- Raised by DECODE while `RUN = BUSY` (93_implementation_defined.md U3). SAFE: the host has no such move. -/
  | decodeWhileBusy
  /-- Raised by DECODE before any CONFIG since reset (93_implementation_defined.md U2). SAFE. -/
  | decodeBeforeConfig
  /-- Raised by READ when `RUN` is not DONE, and by the host's view of the output before a run has ended
  (93_implementation_defined.md U1; 10_state.md R25). SAFE. -/
  | outputNotReady
  /-- Raised by READ with `k >= NCH` (93_implementation_defined.md U1). SAFE. -/
  | noSuchChip
  /-- Raised by READ with `i >= 1924` (93_implementation_defined.md U1). SAFE. -/
  | noSuchRegister
  /-- Raised by the meaning of a stream word where no run stands at an offset of its kind: the spec has no such
  step (40_deinterleaver.md R57 to R59, their preconditions; log 8). SAFE, and `step` never raises it. -/
  | wordOutsideRun
  /-- Raised by `step` where the decoder refuses what is presented. SAFE. -/
  | undecodable (why : DecodeError)
deriving DecidableEq, Repr

/-- The instance right after reset (10_state.md R24; 70_reset_and_hazards.md R114). `MASK` is unspecified there: its
value here is log 1. -/
def State.reset : State where
  mask := 0
  maskWritten := false
  raw := none
  nch := 0
  crf := []
  wp := 0
  run := .idle
  dSize := false
  dCount := false
  dEcho := false
  sizeRecord := none
  countRecord := none
  echoRecord := none
  requests := []
  reply := .nothing

end Sys2Proof.Machine
end

