-- ==== Sys2Proof/Machine/Operands.lean ====
section
/-! DEFINITION. Operand forms: lanes and ranks of a mask (30_encoding.md R45, R47), register and row of a PLANE
word (20_memory.md R29), the Gray field of a register (30_encoding.md R48), the register map (10_state.md R17). -/

namespace Sys2Proof.Machine

/-- The set bits of a mask, lowest first: the lanes of chips 0, 1, 2, ... (30_encoding.md R47). -/
def lanes (m : Word) : List Nat := (List.range 32).filter (fun f => m.getLsbD f)

/-- `popcount(m)` (00_scope.md R7). -/
def popcount (m : Word) : Nat := (lanes m).length

/-- `lane(m, k)`: the position of the `k`-th set bit, or none when there are no more than `k` (30_encoding.md R47). -/
def lane (m : Word) (k : Nat) : Option Nat := (lanes m)[k]?

/-- `rank(m, f) = popcount(m & ((1 << f) - 1))` (30_encoding.md R47). -/
def rank (m : Word) (f : Nat) : Nat := popcount (m &&& BitVec.ofNat 32 (1 <<< f - 1))

/-- `i`, the register a PLANE word at offset `w` belongs to (20_memory.md R29). -/
def planeRegister (w : Nat) : Nat := (w - 1) / 16

/-- `j`, the row of a PLANE word at offset `w` (20_memory.md R29). -/
def planeRow (w : Nat) : Nat := (w - 1) % 16

/-- The offset of the PLANE word of register `i`, row `j` (20_memory.md R29). -/
def planeOffset (i j : Nat) : Nat := 1 + 16 * i + j

/-- `r[11:0]`, the Gray field of an ADC-bearing register (30_encoding.md R48, D8). -/
def grayField (r : Reg) : Sample := r.extractLsb' 0 12

/-- What a register holds (10_state.md R17, 90_conflicts.md C1). -/
inductive RegisterContent where
  /-- Time-slice `t`, gain (0 low, 1 high), register position `p`. -/
  | sample (t gain p : Nat)
  | toaFall (p : Nat)
  | toaRise (p : Nat)
  | totSlow (p : Nat)
  | totFast (p : Nat)
  | rollMask
  | timestamp
deriving DecidableEq, Repr

/-- The register map of one chip (10_state.md R17); none past its 1924 registers. -/
def registerContent (i : Nat) : Option RegisterContent :=
  if i < 1664 then some (.sample (i / 128) (i % 128 / 64) (i % 64))
  else if i < 1728 then some (.toaFall (i - 1664))
  else if i < 1792 then some (.toaRise (i - 1728))
  else if i < 1856 then some (.totSlow (i - 1792))
  else if i < 1920 then some (.totFast (i - 1856))
  else if i = 1920 then some .rollMask
  else if i < 1924 then some .timestamp
  else none

/-- Whether a register holds a Gray-coded ADC value, to which ADCREAD applies (41_gray_decoder.md R73). -/
def adcBearing (i : Nat) : Bool :=
  match registerContent i with
  | some (.sample _ _ _) => true
  | some (.toaFall _) => true
  | some (.toaRise _) => true
  | some (.totSlow _) => true
  | some (.totFast _) => true
  | some .rollMask => false
  | some .timestamp => false
  | none => false

/-- The register position of physical channel `ch` (10_state.md R17). -/
def registerPosition (ch : Nat) : Nat := Config.channelsPerGain - 1 - ch

/-- The register of the low-gain sample of slice `t` at register position `p` (10_state.md R17;
48_downstream_context.md R90). -/
def lowGainRegister (t p : Nat) : Nat := t * (2 * Config.channelsPerGain) + p

/-- The register of the high-gain sample of slice `t` at register position `p` (10_state.md R17;
48_downstream_context.md R90). -/
def highGainRegister (t p : Nat) : Nat := lowGainRegister t p + Config.channelsPerGain

/-- The register of diagnostic field `n` (TOA-fall, TOA-rise, TOT-slow, TOT-fast) at register position `p`
(10_state.md R17; 48_downstream_context.md R90). -/
def diagnosticRegister (n p : Nat) : Nat := lowGainRegister Config.slices (n * Config.channelsPerGain + p)

end Sys2Proof.Machine
end

