-- ==== Sys2Proof/Machine/Flags.lean ====
section
/-! DEFINITION. The conditions of the three diagnostic flags (10_state.md R20, 60_exceptions.md R100 to R104). -/

namespace Sys2Proof.Machine

/-- The condition of `D_SIZE`: the byte length is not exactly 123152, tested before words are formed
(20_memory.md R32, D13). -/
def sizeMismatch (b : RawBlock) : Bool := b.size != Config.blockBytes

/-- The condition of `D_COUNT` (60_exceptions.md R103). -/
def countMismatch (m : Word) : Bool := popcount m != Config.expectedChips

/-- The condition of `D_ECHO`, all 32 bits compared (60_exceptions.md R104). -/
def echoMismatch (m x : Word) : Bool := x != m

/-- `RAWLEN`, the length of a block in words; free where the bytes do not make whole words (log 7). -/
def rawLen (b : RawBlock) : Nat :=
  if b.size % 4 = 0 then b.size / 4 else Config.raggedRawLen b.size

end Sys2Proof.Machine
end

