-- ==== Sys2Proof/Machine/Ops.lean ====
section
/-! DEFINITION. The named operations over the raw block, the register files and the run: reading and writing memory,
forming words, raising a condition, entering and ending a run, reset. -/

namespace Sys2Proof.Machine

/-- The byte memory holds at `a`; an unlisted byte is 0 (log 5). -/
def memRead : List Host.Cell → Nat → Byte
  | [], _ => 0
  | (c, v) :: rest, a => if c = a then v else memRead rest a

/-- Memory with byte `v` at `a`, in canonical form again. The block never writes the raw block (20_memory.md R34):
this is how a host's block is made. -/
def memWrite : List Host.Cell → Nat → Byte → List Host.Cell
  | [], a, v => if v = 0 then [] else [(a, v)]
  | (c, u) :: rest, a, v =>
    if a < c then (if v = 0 then (c, u) :: rest else (a, v) :: (c, u) :: rest)
    else if a = c then (if v = 0 then rest else (a, v) :: rest)
    else (c, u) :: memWrite rest a v

/-- Four bytes as one word, the lowest address first (20_memory.md R31). -/
def wordOfBytes (order : ByteOrder) (b0 b1 b2 b3 : Byte) : Word :=
  match order with
  | .little => b3 ++ b2 ++ b1 ++ b0
  | .big => b0 ++ b1 ++ b2 ++ b3

/-- Byte `n`, counted from the lowest address, of a word in memory (20_memory.md R31). -/
def byteOfWord (order : ByteOrder) (x : Word) (n : Nat) : Byte :=
  match order with
  | .little => x.extractLsb' (8 * n) 8
  | .big => x.extractLsb' (8 * (3 - n)) 8

/-- `MemRead(4*w, 4)`: the four bytes at byte address `4*w`, assembled in the given order (00_scope.md R8). -/
def blockWord (order : ByteOrder) (b : RawBlock) (w : Nat) : Word :=
  wordOfBytes order (memRead b.cells (4 * w)) (memRead b.cells (4 * w + 1)) (memRead b.cells (4 * w + 2))
    (memRead b.cells (4 * w + 3))

/-- `RAW[w]`, which exists for `w < RAWLEN` only (00_scope.md R8, 20_memory.md R26, R31). -/
def rawWord (b : RawBlock) (w : Nat) : Option Word :=
  if 4 * w + 3 < b.size then some (blockWord Config.byteOrder b w) else none

/-- Put one word at word offset `w` of a block's byte view. -/
def putWord (cells : List Host.Cell) (w : Nat) (x : Word) : List Host.Cell :=
  memWrite (memWrite (memWrite (memWrite cells (4 * w) (byteOfWord Config.byteOrder x 0)) (4 * w + 1)
    (byteOfWord Config.byteOrder x 1)) (4 * w + 2) (byteOfWord Config.byteOrder x 2)) (4 * w + 3)
    (byteOfWord Config.byteOrder x 3)

/-- The cells of a run of words from word offset `w` on. -/
def cellsOfWords : Nat → List Word → List Host.Cell
  | _, [] => []
  | w, x :: rest => putWord (cellsOfWords (w + 1) rest) w x

/-- The block of the given words, in order. -/
def blockOfWords (ws : List Word) : RawBlock := ⟨cellsOfWords 0 ws, 4 * ws.length⟩

/-- A register file whose every slot is 0 (40_deinterleaver.md R56). -/
def zeroFile : ChipFile := Vector.replicate 1924 0

/-- The value of register `i` of one file; 0 past the end, which no operation reads. -/
def fileSlot (file : ChipFile) (i : Nat) : Reg := file[i]?.getD 0

/-- `CRF[k][i]`, where it exists (10_state.md R15). -/
def slot (crf : List ChipFile) (k i : Nat) : Option Reg := (crf[k]?).bind (fun file => file[i]?)

/-- OR the bit `v` into bit `n` of register `i` of one file (40_deinterleaver.md R58). -/
def orBit (file : ChipFile) (i n : Nat) (v : Bool) : ChipFile :=
  if h : i < 1924 then file.set i (file[i] ||| ((BitVec.ofBool v).zeroExtend 16 <<< n)) h else file

/-- The loop of a PLANE step over the lanes `fs`, with the chip index `k` reached so far (40_deinterleaver.md R58). -/
def planeLoop (m x : Word) (i j : Nat) : List Nat → Nat → List ChipFile → List ChipFile
  | [], _, crf => crf
  | f :: fs, k, crf =>
    if m.getLsbD f then
      planeLoop m x i j fs (k + 1) (crf.modify k (fun file => orBit file i (15 - j) (x.getLsbD f)))
    else planeLoop m x i j fs k crf

/-- The conditions of 60_exceptions.md R100, each with the value it records. -/
inductive Condition where
  | size (rawLen : Nat)
  | count (n : Count)
  | echo (x : Word)
deriving DecidableEq, Repr

/-- The code of a condition (60_exceptions.md R100). -/
def conditionCode : Condition → Nat
  | .size _ => 1
  | .count _ => 2
  | .echo _ => 3

/-- `raise X(info)`: the flag is set and the value recorded; nothing is saved and control goes nowhere
(60_exceptions.md R100, R101, R107). -/
def raise (c : Condition) (s : State) : State :=
  match c with
  | .size n => { s with dSize := true, sizeRecord := some n }
  | .count n => { s with dCount := true, countRecord := some n }
  | .echo x => { s with dEcho := true, echoRecord := some x }

/-- The end of a raised condition: there is no return operation (60_exceptions.md R108); what stands for it is that
every run entry clears the three flags and their records (40_deinterleaver.md R56). -/
def clearDiagnostics (s : State) : State :=
  { s with dSize := false, dCount := false, dEcho := false, sizeRecord := none, countRecord := none,
           echoRecord := none }

/-- DECODE entry for a block of the wrong size (40_deinterleaver.md R56, 60_exceptions.md R102): the run is over,
the output is empty, DECODE returns success with no register file, and no block stays borrowed. -/
def rejectRun (b : RawBlock) (s : State) : State :=
  raise (.size (rawLen b))
    { clearDiagnostics s with wp := 0, nch := 0, crf := [], run := .rejected, raw := none, reply := .files 0 }

/-- DECODE entry for a block of the right size (40_deinterleaver.md R56). -/
def acceptRun (b : RawBlock) (s : State) : State :=
  let n := BitVec.ofNat 6 (popcount s.mask)
  let s' := { clearDiagnostics s with
    wp := 0, nch := n, crf := List.replicate (popcount s.mask) zeroFile, run := .busy, raw := some b }
  if countMismatch s.mask then raise (.count n) s' else s'

/-- DECODE entry, the first step of a run (40_deinterleaver.md R56). -/
def enterRun (b : RawBlock) (s : State) : State :=
  if sizeMismatch b then rejectRun b s else acceptRun b s

/-- `WP <- WP + 1`, and the end of an accepted run when that leaves `WP = 30788` (40_deinterleaver.md R60): `RUN` is
DONE, the block is given back (10_state.md R13) and DECODE returns its register files (42_host_operations.md R77). -/
def advanceWord (s : State) : State :=
  if s.wp + 1 = Config.nWords then
    { s with wp := s.wp + 1, run := .done, raw := none, reply := .files s.nch }
  else { s with wp := s.wp + 1 }

/-- Reset of the instance, in any state (70_reset_and_hazards.md R114, R116); the host's later moves stay (log 11). -/
def resetInstance (s : State) : State := { State.reset with requests := s.requests }

/-- The state with a transaction's result returned to the host (D1; log 4). -/
def answer (r : Reply) (s : State) : State := { s with reply := r }

end Sys2Proof.Machine
end

