-- ==== Sys2Proof/Machine/Gray.lean ====
section
/-! DEFINITION. The Gray decoder: G2B, REMAP, ADCREAD (41_gray_decoder.md R68 to R72), and the inverse B2G that the
round-trip law needs (R70). -/

namespace Sys2Proof.Machine

/-- Set bit `i` of `b` to `v`, given that it is clear. -/
def withBit (b : Sample) (i : Nat) (v : Bool) : Sample := b ||| ((BitVec.ofBool v).zeroExtend 12 <<< i)

/-- The recursion of 41_gray_decoder.md R68 after `n` steps below bit 11: bits 11 down to `11 - n` are written. -/
def grayLoop (g : Sample) : Nat → Sample
  | 0 => withBit 0 11 (g.getLsbD 11)
  | n + 1 =>
    let b := grayLoop g n
    withBit b (10 - n) (g.getLsbD (10 - n) ^^ b.getLsbD (11 - n))

/-- `G2B(g)` (41_gray_decoder.md R68). -/
def grayToBinary (g : Sample) : Sample := grayLoop g 11

/-- `B2G(b)`, not an operation of the block (41_gray_decoder.md R70). -/
def binaryToGray (b : Sample) : Sample := b ^^^ (b >>> 1)

/-- `REMAP(d)`, one function of the decoded value, its cases not chained (41_gray_decoder.md R71,
70_reset_and_hazards.md R123). -/
def remapValue (d : Sample) : Remapped :=
  if d = 0 then Config.remapZeroTo else if d = Config.remapFrom then Config.remapFromTo else d.zeroExtend 13

/-- `ADCREAD(r) = REMAP(G2B(r[11:0]))` (41_gray_decoder.md R72). -/
def adcRead (r : Reg) : Remapped := remapValue (grayToBinary (grayField r))

/-- G2B as an operation: its result is returned, nothing else changes (41_gray_decoder.md R68,
42_host_operations.md R79). -/
def execG2b (g : Sample) (s : State) : Host.Outcome State Fault Refusal :=
  .next (answer (.binary (grayToBinary g)) s)

/-- REMAP as an operation (41_gray_decoder.md R71, 42_host_operations.md R79). -/
def execRemap (d : Sample) (s : State) : Host.Outcome State Fault Refusal :=
  .next (answer (.remapped (remapValue d)) s)

/-- ADCREAD as an operation (41_gray_decoder.md R72, 42_host_operations.md R79). -/
def execAdcread (r : Reg) (s : State) : Host.Outcome State Fault Refusal :=
  .next (answer (.remapped (adcRead r)) s)

end Sys2Proof.Machine
end

