-- ==== Sys2Proof/Machine/HostOps.lean ====
section
/-! DEFINITION. The host operations CONFIG, DECODE and READ (42_host_operations.md R76 to R78). -/

namespace Sys2Proof.Machine

/-- CONFIG (42_host_operations.md R76); refused while `RUN = BUSY` (93_implementation_defined.md U3). -/
def execConfig (m : Word) (s : State) : Host.Outcome State Fault Refusal :=
  if s.run = .busy then .refused .configWhileBusy
  else .next (answer .nothing { s with mask := m, maskWritten := true })

/-- DECODE, the entry step of a run (42_host_operations.md R77, 40_deinterleaver.md R56); refused while `RUN = BUSY`
(93_implementation_defined.md U3) and before any CONFIG (U2). -/
def execDecode (b : RawBlock) (s : State) : Host.Outcome State Fault Refusal :=
  if s.run = .busy then .refused .decodeWhileBusy
  else if s.maskWritten then .next (enterRun b s)
  else .refused .decodeBeforeConfig

/-- READ (42_host_operations.md R78); refused outside its precondition (93_implementation_defined.md U1). -/
def execRead (k i : Nat) (s : State) : Host.Outcome State Fault Refusal :=
  if s.run = .done then
    if k < s.nch.toNat then
      match slot s.crf k i with
      | some v => .next (answer (.register v) s)
      | none => .refused .noSuchRegister
    else .refused .noSuchChip
  else .refused .outputNotReady

end Sys2Proof.Machine
end

