-- ==== Sys2Proof/Machine/Stream.lean ====
section
/-! DEFINITION. The stream words ECHO, PLANE and TAIL (40_deinterleaver.md R57 to R60). -/

namespace Sys2Proof.Machine

/-- ECHO, the step at `WP = 0` (40_deinterleaver.md R57). -/
def execEcho (x : Word) (s : State) : Host.Outcome State Fault Refusal :=
  if s.run = .busy ∧ s.wp = 0 then
    .next (advanceWord (if echoMismatch s.mask x then raise (.echo x) s else s))
  else .refused .wordOutsideRun

/-- PLANE, the step at each `WP` in 1..30784 (40_deinterleaver.md R58). -/
def execPlane (x : Word) (s : State) : Host.Outcome State Fault Refusal :=
  if s.run = .busy ∧ 1 ≤ s.wp ∧ s.wp ≤ 30784 then
    .next (advanceWord { s with
      crf := planeLoop s.mask x (planeRegister s.wp) (planeRow s.wp) (List.range 32) 0 s.crf })
  else .refused .wordOutsideRun

/-- TAIL, the step at each `WP` in 30785..30787: the word has no effect (40_deinterleaver.md R59). -/
def execTail (_t : Word) (s : State) : Host.Outcome State Fault Refusal :=
  if s.run = .busy ∧ 30785 ≤ s.wp ∧ s.wp ≤ 30787 then .next (advanceWord s)
  else .refused .wordOutsideRun

end Sys2Proof.Machine
end

