-- ==== Sys2Proof/Machine/Dispatch.lean ====
section
/-! DEFINITION. One arm per operation of spec/opcode_table.json. -/

namespace Sys2Proof.Machine

def exec (i : Instr) (s : State) : Host.Outcome State Fault Refusal :=
  match i with
  | .echo x => Sys2Proof.Machine.execEcho x s
  | .plane x => Sys2Proof.Machine.execPlane x s
  | .tail t => Sys2Proof.Machine.execTail t s
  | .g2b g => Sys2Proof.Machine.execG2b g s
  | .remap d => Sys2Proof.Machine.execRemap d s
  | .adcread r => Sys2Proof.Machine.execAdcread r s
  | .config m => Sys2Proof.Machine.execConfig m s
  | .decode raw => Sys2Proof.Machine.execDecode raw s
  | .read k reg => Sys2Proof.Machine.execRead k reg s

end Sys2Proof.Machine
end

