-- ==== Sys2Proof/Machine/Fetch.lean ====
section
/-! DEFINITION. What the next step does: a move of the host that has landed, or the next raw word of the run in
progress, or nothing (log 3, 9). -/

namespace Sys2Proof.Machine

/-- What the next step takes. -/
inductive Fetched where
  /-- No run is in progress and the host has no move: the instance waits (70_reset_and_hazards.md R115). -/
  | idle
  /-- The host resets the instance. -/
  | reset
  /-- The operation presented, and what selects it. -/
  | operation (sel : Select) (operand : Operand)
  /-- There is no word to take. -/
  | fault (why : Fault)
deriving DecidableEq, Repr

/-- Whether a move of the host is served now: always when no run is in progress, else when it is to land during the
run and `WP` has reached its offset (log 3, 23). -/
def lands (s : State) (r : Request) : Bool :=
  match r.arrival with
  | .afterRun => s.run != .busy
  | .atOffset w => s.run != .busy || decide (w ≤ s.wp)

/-- The raw word at `WP` (40_deinterleaver.md R57, R58). -/
def fetchWord (s : State) : Fetched :=
  match s.raw with
  | none => .fault .noBlockBorrowed
  | some b =>
    match rawWord b s.wp with
    | none => .fault .beyondBlock
    | some x => .operation (.offset s.wp) (.bits x.toNat)

/-- What is taken when no move of the host lands: the next word of a run, or nothing. -/
def fetchOwn (s : State) : Fetched := if s.run = .busy then fetchWord s else .idle

/-- A move of the host as what the step takes. -/
def moveFetched : HostMove → Fetched
  | .reset => .reset
  | .call op operand => .operation (.caller op) operand

/-- What the next step takes, and the moves of the host that are left. -/
def fetch (s : State) : Fetched × List Request :=
  match s.requests with
  | [] => (fetchOwn s, [])
  | r :: rest => if lands s r then (moveFetched r.move, rest) else (fetchOwn s, r :: rest)

/-- The state with the given moves of the host left. -/
def withRequests (rs : List Request) (s : State) : State := { s with requests := rs }

/-- The state whose next step takes the bare pattern `w` of `nbits` bits (log 10): it is the host's next move, to be
served at once. A width the table has no row of leaves the state as it is. -/
def placePattern (s : State) (nbits w : Nat) : State :=
  match tablePresentation nbits w with
  | none => s
  | some (op, o) => withRequests (⟨.atOffset 0, .call op o⟩ :: s.requests) s

end Sys2Proof.Machine
end

