-- ==== Sys2Proof/Machine/Step.lean ====
section
/-! DEFINITION. One step of the machine: fetch, decode, execute. -/

namespace Sys2Proof.Machine

/-- Decode what is presented and execute it on `s`. -/
def runOperation (sel : Select) (o : Operand) (s : State) : Host.Outcome State Fault Refusal :=
  match decodeOperation sel o with
  | .ok i => exec i s
  | .error e => .refused (.undecodable e)

/-- Carry out what was fetched. -/
def carryOut (f : Fetched) (s : State) : Host.Outcome State Fault Refusal :=
  match f with
  | .idle => .next s
  | .reset => .next (resetInstance s)
  | .operation sel o => runOperation sel o s
  | .fault why => .fault why

/-- One step: a host move that has landed, else the next raw word of the run in progress, else waiting. -/
def step (s : State) : Host.Outcome State Fault Refusal :=
  carryOut (fetch s).1 (withRequests (fetch s).2 s)

/-- `s` with a bare pattern placed where the next step takes it (log 10). -/
def State.withFetchWord (s : State) (nbits w : Nat) : State := placePattern s nbits w

end Sys2Proof.Machine
end

