-- ==== Sys2Proof/Machine/Deinterleave.lean ====
section
/-! DEFINITION. DECODE as a function, the normative result of a run (40_deinterleaver.md R61), and the inverse layout
INTERLEAVE, which is no operation of the block (30_encoding.md R54). -/

namespace Sys2Proof.Machine

/-- `sum over j in 0..15 of bit(raw[1 + 16*i + j], f) << (15 - j)` (40_deinterleaver.md R61, 30_encoding.md R46);
`raw` gives the word at each offset. -/
def chipValue (raw : Nat → Word) (f i : Nat) : Reg :=
  BitVec.ofNat 16 (((List.range 16).map (fun j => ((raw (planeOffset i j)).getLsbD f).toNat <<< (15 - j))).sum)

/-- The register file of the chip on lane `f`. -/
def chipFileOf (raw : Nat → Word) (f : Nat) : ChipFile := Vector.ofFn (fun i => chipValue raw f i)

/-- The register files of `decode(raw, m)`, for a block of the right length (40_deinterleaver.md R61). -/
def decodeFiles (raw : Nat → Word) (m : Word) : List ChipFile := (lanes m).map (chipFileOf raw)

/-- What a run leaves (40_deinterleaver.md R61). -/
structure DecodeResult where
  files : List ChipFile
  dSize : Bool
  dCount : Bool
  dEcho : Bool
deriving DecidableEq, Repr

/-- `decode(raw, m)` with its flags, for a block of any length (40_deinterleaver.md R61). -/
def decodeFunction (b : RawBlock) (m : Word) : DecodeResult :=
  if sizeMismatch b then ⟨[], true, false, false⟩
  else ⟨decodeFiles (blockWord Config.byteOrder b) m, false, countMismatch m,
    echoMismatch m (blockWord Config.byteOrder b 0)⟩

/-- Bit `f` of word `R[w]` of `INTERLEAVE(crf, m, fill)` (30_encoding.md R54). -/
def interleaveBit (crf : List ChipFile) (m fill : Word) (w f : Nat) : Bool :=
  if m.getLsbD f then
    (((crf[rank m f]?).getD zeroFile)[planeRegister w]?.getD 0).getLsbD (15 - planeRow w)
  else fill.getLsbD f

/-- The word whose bits below `n` are those given, and whose other bits are 0. -/
def wordOfBits (bit : Nat → Bool) : Nat → Word
  | 0 => 0
  | n + 1 => wordOfBits bit n ||| ((BitVec.ofBool (bit n)).zeroExtend 32 <<< n)

/-- Word `R[w]` of `INTERLEAVE(crf, m, fill)` (30_encoding.md R54). -/
def interleaveWord (crf : List ChipFile) (m fill : Word) (w : Nat) : Word :=
  if w = 0 then m
  else if w ≤ Config.nDataWords then wordOfBits (interleaveBit crf m fill w) 32
  else fill

/-- `INTERLEAVE(crf, m, fill)` (30_encoding.md R54). -/
def interleave (crf : List ChipFile) (m fill : Word) : RawBlock :=
  blockOfWords ((List.range Config.nWords).map (interleaveWord crf m fill))

end Sys2Proof.Machine
end

