-- ==== Sys2Proof/Machine/HostView.lean ====
section
/-! DEFINITION. What the host may read of an instance, and when (10_state.md R25, 60_exceptions.md R101). `WP` is
not exposed. -/

namespace Sys2Proof.Machine

/-- `RUN`, readable at any time (10_state.md R25). -/
def viewRun (s : State) : RunStatus := s.run

/-- `MASK`, readable at any time (10_state.md R25). -/
def viewMask (s : State) : Word := s.mask

/-- Whether a run has ended, so that its outcome may be read: `RUN` is DONE or REJECTED (10_state.md R25). -/
def runEnded (s : State) : Bool := s.run = .done || s.run = .rejected

/-- `NCH`, once a run has ended (10_state.md R25). -/
def viewCount (s : State) : Except Refusal Count :=
  if runEnded s then .ok s.nch else .error .outputNotReady

/-- The register files, once a run has ended; none after a rejected run (10_state.md R25). -/
def viewFiles (s : State) : Except Refusal (List ChipFile) :=
  if runEnded s then .ok s.crf else .error .outputNotReady

/-- `D_SIZE`, `D_COUNT`, `D_ECHO`, once a run has ended (10_state.md R25). -/
def viewFlags (s : State) : Except Refusal (Bool × Bool × Bool) :=
  if runEnded s then .ok (s.dSize, s.dCount, s.dEcho) else .error .outputNotReady

/-- The conditions the run raised, with what they recorded, in the order of 60_exceptions.md R106 (R101: a list of at
most one event of each name is an equally faithful view). -/
def raisedConditions (s : State) : List Condition :=
  (s.sizeRecord.map Condition.size).toList ++ (s.countRecord.map Condition.count).toList ++
    (s.echoRecord.map Condition.echo).toList

/-- The conditions raised, once a run has ended (60_exceptions.md R101). -/
def viewConditions (s : State) : Except Refusal (List Condition) :=
  if runEnded s then .ok (raisedConditions s) else .error .outputNotReady

end Sys2Proof.Machine
end

