-- ==== Sys2Proof/Machine/Instances.lean ====
section
/-! DEFINITION. Several instances of the block, one per board (20_memory.md R37, 60_exceptions.md R112, D18), and the
collector that puts their outputs in arrival order. -/

namespace Sys2Proof.Machine

/-- `N_INSTANCES` instances; each has its own `RAW`, `CRF`, `WP`, `RUN` and flags (20_memory.md R37). -/
abbrev Boards := List State

/-- One step of instance `n`; which instance moves is the caller's choice (log 18). A number that names no instance
moves none. -/
def stepInstance (n : Nat) (boards : Boards) : Host.Outcome Boards Fault Refusal :=
  match boards[n]? with
  | none => .next boards
  | some s =>
    match step s with
    | .next t => .next (boards.set n t)
    | .fault r => .fault r
    | .refused r => .refused r

/-- The output of one run with the arrival number of its raw block (20_memory.md R37). -/
structure Emission where
  arrival : Nat
  files : List ChipFile
deriving DecidableEq, Repr

/-- Put one output among those already in arrival order. -/
def insertByArrival (e : Emission) : List Emission → List Emission
  | [] => [e]
  | d :: rest => if e.arrival ≤ d.arrival then e :: d :: rest else d :: insertByArrival e rest

/-- The outputs in the arrival order of their raw blocks, whatever the order they completed in (20_memory.md R37,
70_reset_and_hazards.md R126). -/
def collect : List Emission → List Emission
  | [] => []
  | e :: rest => insertByArrival e (collect rest)

end Sys2Proof.Machine
end

