-- ==== Sys2Proof/Machine/Downstream.lean ====
section
/-! DEFINITION. Context, outside the block (00_scope.md R4): the downstream consumers of its output as pure functions
over register files (48_downstream_context.md R83 to R95). No operation calls them; what they settle of the source's
silence is log 19. -/

namespace Sys2Proof.Machine

/-- A condition the downstream software surfaces (48_downstream_context.md R97; 93_implementation_defined.md U7,
U11). -/
inductive DownstreamFault where
  /-- The roll mask has fewer or more than two set bits, or two that are neither adjacent nor 0 and 12. SAFE. -/
  | malformedRollMask (r : BitVec 13)
  /-- A pedestal sample set whose size is not 32. SAFE. -/
  | pedestalSampleSet (size : Nat)
deriving DecidableEq, Repr

/-- The roll mask, bits 12:0 of register 1920 (48_downstream_context.md R83, D16). -/
def rollMaskOf (file : ChipFile) : BitVec 13 := (fileSlot file 1920).extractLsb' 0 13

/-- The set bits of a roll mask, lowest first. -/
def rollMaskBits (r : BitVec 13) : List Nat := (List.range Config.slices).filter (fun n => r.getLsbD n)

/-- `rollMaskEdges(r)`, the integer `last` (48_downstream_context.md R84; a malformed mask is a fault, U7). The wrap
case is the first and the last position of the ring. -/
def rollMaskEdges (r : BitVec 13) : Except DownstreamFault Nat :=
  match rollMaskBits r with
  | [a, b] =>
    if a = 0 ∧ b = Config.slices - 1 then .ok 0 else if b - a = 1 then .ok b else .error (.malformedRollMask r)
  | _ => .error (.malformedRollMask r)

/-- The edge of a chip's own roll mask (48_downstream_context.md R83, R84). -/
def ownEdge (file : ChipFile) : Except DownstreamFault Nat := rollMaskEdges (rollMaskOf file)

/-- The non-negative remainder by the 13 slices of the ring (48_downstream_context.md R85, R86). -/
def ringMod (n : Int) : Nat := (n % (Config.slices : Int)).toNat

/-- `mainFrame` (48_downstream_context.md R85). -/
def mainFrame (last : Nat) : Nat :=
  let offsetEdge := ringMod ((last : Int) + ((Config.slices : Int) - Config.mainFrameOffset))
  ringMod ((Config.slices : Int) - 1 - (offsetEdge : Int))

/-- A slice index `d` slices after `base` on the ring (48_downstream_context.md R86). -/
def sliceAt (base : Nat) (d : Int) : Nat := ringMod ((base : Int) + d)

/-- ADCREAD of register `i` of a file: every ADC read goes through it (70_reset_and_hazards.md R122). -/
def adcAt (file : ChipFile) (i : Nat) : Remapped := adcRead (fileSlot file i)

/-- The even channels 0, 2, ..., 62 (48_downstream_context.md R88, R89). -/
def evenChannels : List Nat := (List.range (Config.channelsPerGain / 2)).map (fun n => 2 * n)

/-- The pedestal samples of one chip (48_downstream_context.md R88). -/
def pedestalSamples (file : ChipFile) (frame : Nat) : List Nat :=
  evenChannels.map (fun ch => (adcAt file (lowGainRegister frame (registerPosition ch))).toNat)

/-- Put a number into a rising list. -/
def insertRising (n : Nat) : List Nat → List Nat
  | [] => [n]
  | m :: rest => if n ≤ m then n :: m :: rest else m :: insertRising n rest

/-- A list in rising order. -/
def sortRising : List Nat → List Nat
  | [] => []
  | n :: rest => insertRising n (sortRising rest)

/-- The pedestal: the lower median, the 16th smallest of exactly 32 samples (48_downstream_context.md R88). -/
def pedestalOf (samples : List Nat) : Except DownstreamFault Nat :=
  if samples.length = Config.channelsPerGain / 2 then .ok ((sortRising samples)[15]?.getD 0)
  else .error (.pedestalSampleSet samples.length)

/-- The suppression rule, in signed integers, its boundary inclusive (48_downstream_context.md R91). -/
def keepsChannel (charge pedestal : Nat) : Bool :=
  decide ((charge : Int) - ((pedestal : Int) + Config.fixedNoise) ≥ Config.fixedThreshold)

/-- A chip as the extractor is given it. -/
structure ExtractedChip where
  /-- The chip index `k`: the rank of the chip's lane in the mask of its run (10_state.md R15,
  70_reset_and_hazards.md R125). -/
  index : Nat
  /-- `CRF[k]`. -/
  file : ChipFile
  /-- The roll-mask edge the chip uses, or its malformed mask: whose roll mask that is, the source does not say
  (48_downstream_context.md R87; log 19). -/
  edge : Except DownstreamFault Nat
deriving Repr

/-- The 17 values of a surviving channel (48_downstream_context.md R92); `g` is the chip's index within its group. -/
def hitRecord (g : Nat) (file : ChipFile) (last ch : Nat) : List Reg :=
  let frame := mainFrame last
  let p := registerPosition ch
  let window := [sliceAt frame (-2), sliceAt frame (-1), frame, sliceAt frame 1, sliceAt frame 2]
  let low := window.map (fun t => adcAt file (lowGainRegister t p))
  let high := window.map (fun t => adcAt file (highGainRegister t p))
  let fixed := [0, 1, 2, 3].map (fun n => adcAt file (diagnosticRegister n p))
  let after := [sliceAt last 1, sliceAt last 2].map (fun t => adcAt file (lowGainRegister t p))
  BitVec.ofNat 16 (g % Config.chipsPerBoard * 100 + ch) ::
    (low ++ high ++ fixed ++ after).map (fun v => v.zeroExtend 16)

/-- Whether channel `ch` of the chip of index `k` is emitted: it is not the disconnected channel, which is named by the
chip index, a rank and not a place in a group (48_downstream_context.md R89, 70_reset_and_hazards.md R125), and it
survives the suppression (R91). -/
def emitsChannel (k : Nat) (file : ChipFile) (frame pedestal ch : Nat) : Bool :=
  decide ((k, ch) ≠ Config.disconnected) &&
    keepsChannel (adcAt file (lowGainRegister frame (registerPosition ch))).toNat pedestal

/-- The hit records of the chip at place `g` of its group, in channel order. -/
def extractChip (g : Nat) (c : ExtractedChip) : Except DownstreamFault (List (List Reg)) :=
  match c.edge with
  | .error e => .error e
  | .ok last =>
    match pedestalOf (pedestalSamples c.file (mainFrame last)) with
    | .error e => .error e
    | .ok pedestal =>
      .ok ((evenChannels.filter (emitsChannel c.index c.file (mainFrame last) pedestal)).map (hitRecord g c.file last))

/-- The hit records of the chips of one group, from place `g` on. -/
def extractGroup : Nat → List ExtractedChip → Except DownstreamFault (List (List Reg))
  | _, [] => .ok []
  | g, c :: rest =>
    match extractChip g c, extractGroup (g + 1) rest with
    | .ok hits, .ok more => .ok (hits ++ more)
    | .error e, _ => .error e
    | .ok _, .error e => .error e

/-- The `n` complete groups of four consecutive chips (48_downstream_context.md R87). -/
def extractGroups : Nat → List ExtractedChip → List (Except DownstreamFault (List (List Reg)))
  | 0, _ => []
  | n + 1, chips =>
    extractGroup 0 (chips.take Config.chipsPerBoard) :: extractGroups n (chips.drop Config.chipsPerBoard)

/-- `extract(chips)`: `floor(count/4)` groups, one stream each (48_downstream_context.md R87). -/
def extractBoards (chips : List ExtractedChip) : List (Except DownstreamFault (List (List Reg))) :=
  extractGroups (chips.length / Config.chipsPerBoard) chips

/-- The reportable anomaly of a chip count that is not a multiple of 4 (48_downstream_context.md R87). -/
def groupAnomaly (chips : List ExtractedChip) : Bool := chips.length % Config.chipsPerBoard != 0

/-- The concatenated stream of a board's hit records (48_downstream_context.md R93). -/
def boardStream (hits : List (List Reg)) : List Reg := hits.flatten

/-- The hit count, stream length by record length (48_downstream_context.md R93). -/
def hitCount (stream : List Reg) : Nat := stream.length / Config.recordLength

/-- What the sink is given for one decoded board (48_downstream_context.md R94). -/
structure Plane where
  plane : Nat
  rows : Nat
  columns : Nat
  hits : Nat
  values : List (Reg × List Reg)
  trigger : Option (BitVec 16)
deriving DecidableEq, Repr

/-- The plane of one board: geometry 4 by 64, each hit its channel id and its 16 values (48_downstream_context.md
R94). -/
def planeOf (plane : Nat) (trigger : Option (BitVec 16)) (hits : List (List Reg)) : Plane where
  plane := plane
  rows := Config.planeRows
  columns := Config.planeColumns
  hits := hitCount (boardStream hits)
  values := hits.map (fun h => (h.headD 0, h.drop 1))
  trigger := trigger

/-- The trigger identifier: bytes 8 and 9 of the event's first raw block, little-endian; none is the "unknown"
sentinel, whose value the source does not give (48_downstream_context.md R95, U10). DESIGN CHOICE (log 25): the rule
gives no length for an undersized block; here it is one that lacks either of the two bytes, so below 10 bytes. -/
def triggerId (first : Option RawBlock) : Option (BitVec 16) :=
  match first with
  | none => none
  | some b => if 10 ≤ b.size then some (memRead b.cells 9 ++ memRead b.cells 8) else none

/-- The output of an instance's ended run, as the host reads it, with the arrival number of its raw block
(10_state.md R25); a rejected run has no register file, so no chip and no hit. -/
def emissionOf (arrival : Nat) (s : State) : Except Refusal Emission :=
  (viewFiles s).map (fun files => ⟨arrival, files⟩)

/-- The chips of the register files of one run, from chip index `k` on: each has its rank as index
(10_state.md R15) and the edge that `edge` gives it, from all files of its run and its index (log 19). -/
def chipsFrom (edge : List ChipFile → Nat → Except DownstreamFault Nat) (files : List ChipFile) :
    Nat → List ChipFile → List ExtractedChip
  | _, [] => []
  | k, file :: rest => ⟨k, file, edge files k⟩ :: chipsFrom edge files (k + 1) rest

/-- The chips of one run's output. -/
def chipsOfRun (edge : List ChipFile → Nat → Except DownstreamFault Nat) (e : Emission) : List ExtractedChip :=
  chipsFrom edge e.files 0 e.files

/-- The extractor's input: the chips of one or more runs (48_downstream_context.md R87), their outputs in the arrival
order of the raw blocks (20_memory.md R37). -/
def chipsOfEvent (edge : List ChipFile → Nat → Except DownstreamFault Nat) (es : List Emission) :
    List ExtractedChip :=
  (collect es).flatMap (chipsOfRun edge)

/-- The planes of the given boards, in their order: board `n` under the identifier `ident n`, which the source does not
give (log 19), from number `n` on. A board with a malformed input has the surfaced condition in its place. -/
def planesFrom (ident : Nat → Nat) (trigger : Option (BitVec 16)) :
    Nat → List (Except DownstreamFault (List (List Reg))) → List (Except DownstreamFault Plane)
  | _, [] => []
  | n, board :: rest => board.map (planeOf (ident n) trigger) :: planesFrom ident trigger (n + 1) rest

/-- What the sink is given for one event: the plane of each decoded board, in the arrival order of the raw blocks
whatever order their runs completed in (48_downstream_context.md R94, 20_memory.md R37). -/
def emitPlanes (edge : List ChipFile → Nat → Except DownstreamFault Nat) (ident : Nat → Nat)
    (trigger : Option (BitVec 16)) (es : List Emission) : List (Except DownstreamFault Plane) :=
  planesFrom ident trigger 0 (extractBoards (chipsOfEvent edge es))

end Sys2Proof.Machine
end

