-- ==== Sys2Proof/Safety.lean ====
section
/-! DEFINITION. The invariants of an instance, and what a completed run is, in the terms the statements use. -/

namespace Sys2Proof.Machine

/-- What each value of `RUN` says of the rest of the state (10_state.md R19, R24; 40_deinterleaver.md R56, R60). -/
def RunInv (s : State) : Prop :=
  match s.run with
  | .idle => s.raw = none ∧ s.wp = 0 ∧ s.nch = 0 ∧ s.dSize = false ∧ s.dCount = false ∧ s.dEcho = false
  | .busy => s.wp < 30788 ∧ s.maskWritten = true ∧ s.nch.toNat = popcount s.mask ∧ s.dSize = false ∧
      s.dCount = countMismatch s.mask ∧
      ∃ b, s.raw = some b ∧ b.wf = true ∧ b.size = 123152 ∧
        s.dEcho = (decide (0 < s.wp) && echoMismatch s.mask (blockWord Config.byteOrder b 0))
  | .done => s.raw = none ∧ s.wp = 30788 ∧ s.dSize = false
  | .rejected => s.raw = none ∧ s.wp = 0 ∧ s.nch = 0 ∧ s.dSize = true ∧ s.dCount = false ∧ s.dEcho = false

/-- The invariant of an instance. -/
structure StateInv (s : State) : Prop where
  /-- What `RUN` says of the rest of the state. -/
  run : RunInv s
  /-- There are exactly `NCH` register files (10_state.md R15). -/
  files : s.crf.length = s.nch.toNat
  /-- `NCH` is in 0..32 (10_state.md R14). -/
  count : s.nch.toNat ≤ 32
  /-- A value is recorded exactly where its flag is set (60_exceptions.md R101). -/
  sizeRecord : s.sizeRecord.isSome = s.dSize
  countRecord : s.countRecord.isSome = s.dCount
  echoRecord : s.echoRecord.isSome = s.dEcho

/-- During a run, bit `n` of register `i` of the chip on lane `f` holds what the word that carries it says, once that
word has been consumed, and 0 before (40_deinterleaver.md R58, 20_memory.md R35, 70_reset_and_hazards.md R119). -/
def Assembled (s : State) : Prop :=
  s.run = .busy → ∀ b, s.raw = some b → ∀ k f, lane s.mask k = some f → ∀ i, i < 1924 → ∀ n, n < 16 →
    (slot s.crf k i).map (fun v => v.getLsbD n) =
      some (decide (planeOffset i (15 - n) < s.wp) &&
        (blockWord Config.byteOrder b (planeOffset i (15 - n))).getLsbD f)

/-- No move of the host lands before the run in progress has ended. -/
def Undisturbed (s : State) : Prop := ∀ r ∈ s.requests, r.arrival = .afterRun

end Sys2Proof.Machine
end

