-- ==== Sys2Proof/Certificates/Slice0/Obligations.lean ====
section
/-! DEFINITION. The statements about the block, each from a numbered rule of spec/. A docstring names the rule, and
where a clause rests on a decision the spec marks as its own (D<n>) or on a log entry, names that. -/

open Sys2Proof Sys2Proof.Machine

/-! The Gray decoder. -/

/-- R68: bit 11 is copied, each lower bit is the input bit XOR the result bit above it; the operation returns that
result in any state and changes nothing else; the rule's corner cases. -/
def Obligations.GrayDecoderRecursion : Prop :=
  (∀ g : Sample, (grayToBinary g).getLsbD 11 = g.getLsbD 11 ∧
    ∀ i, i < 11 → (grayToBinary g).getLsbD i = (g.getLsbD i ^^ (grayToBinary g).getLsbD (i + 1))) ∧
  (∀ (g : Sample) (s : State), exec (.g2b g) s = .next { s with reply := .binary (grayToBinary g) }) ∧
  grayToBinary 0 = 0 ∧ grayToBinary 0x800 = 0xFFF ∧ grayToBinary 0xFFF = 0xAAA ∧ grayToBinary 0x006 = 4 ∧
  ∀ g g' : Sample, grayToBinary g = grayToBinary g' → g = g'

/-- R69 (derived by the spec from R68): the closed forms of G2B, and that it is linear over XOR. -/
def Obligations.GrayClosedForms : Prop :=
  (∀ g : Sample, ∀ i, i < 12 → (grayToBinary g).getLsbD i =
    ((List.range (12 - i)).map (fun d => g.getLsbD (i + d))).foldl xor false) ∧
  (∀ g : Sample, grayToBinary g = g ^^^ (g >>> 1) ^^^ (g >>> 2) ^^^ (g >>> 3) ^^^ (g >>> 4) ^^^ (g >>> 5) ^^^
    (g >>> 6) ^^^ (g >>> 7) ^^^ (g >>> 8) ^^^ (g >>> 9) ^^^ (g >>> 10) ^^^ (g >>> 11)) ∧
  (∀ n, n < 12 → grayToBinary (1#12 <<< n) = BitVec.ofNat 12 (2 ^ (n + 1) - 1)) ∧
  ∀ x y : Sample, grayToBinary (x ^^^ y) = grayToBinary x ^^^ grayToBinary y

/-- R70 (derived by the spec from R68), R75 (a): B2G by its bits, that it is G2B's inverse both ways, and that
consecutive values have codes that differ in exactly one bit. -/
def Obligations.GrayInverse : Prop :=
  (∀ b : Sample, (binaryToGray b).getLsbD 11 = b.getLsbD 11 ∧
    ∀ i, i < 11 → (binaryToGray b).getLsbD i = (b.getLsbD i ^^ b.getLsbD (i + 1))) ∧
  (∀ x : Sample, grayToBinary (binaryToGray x) = x ∧ binaryToGray (grayToBinary x) = x) ∧
  ∀ x : Sample, x.toNat < 4095 → ∃ n, n < 12 ∧ binaryToGray x ^^^ binaryToGray (x + 1) = 1#12 <<< n

/-- R71: 0 becomes 4096, 4 becomes 0, every other value passes; the result is never 4, is 0 only for 4 and 4096 only
for 0, and the map is injective; the operation returns that result in any state and changes nothing else. -/
def Obligations.RemapLaw : Prop :=
  remapValue 0 = 4096 ∧ remapValue 4 = 0 ∧
  (∀ d : Sample, d ≠ 0 → d ≠ 4 → (remapValue d).toNat = d.toNat) ∧
  (∀ d : Sample, remapValue d ≠ 4) ∧ (∀ d : Sample, remapValue d = 0 ↔ d = 4) ∧
  (∀ d : Sample, remapValue d = 4096 ↔ d = 0) ∧
  (∀ d d' : Sample, remapValue d = remapValue d' → d = d') ∧
  ∀ (d : Sample) (s : State), exec (.remap d) s = .next { s with reply := .remapped (remapValue d) }

/-- R72: ADCREAD is REMAP of G2B of bits 11:0 (those bits are D8, log 15), and bits 15:12 do not matter; it completes
in any state and changes nothing but the result returned. -/
def Obligations.AdcReadDecodesAndRemaps : Prop :=
  (∀ (r : Reg) (s : State), exec (.adcread r) s =
    .next { s with reply := .remapped (remapValue (grayToBinary (r.extractLsb' 0 12))) }) ∧
  (∀ r r' : Reg, (∀ n, n < 12 → r.getLsbD n = r'.getLsbD n) → adcRead r = adcRead r') ∧
  adcRead 0x0000 = 4096 ∧ adcRead 0xF006 = 0 ∧ adcRead 0x0006 = 0 ∧ adcRead 0x0800 = 4095

/-- R79: the three pure functions complete in every state, with the same result in every state and every time, and
leave the deinterleaver as it was. -/
def Obligations.GrayUnitLeavesDeinterleaver : Prop :=
  ∀ i : Instr, (∃ g, i = .g2b g) ∨ (∃ d, i = .remap d) ∨ (∃ r, i = .adcread r) →
    ∃ v : Reply, ∀ s : State, ∃ t, exec i s = .next t ∧ t = { s with reply := v } ∧ exec i t = .next t

/-- R73: a register of the map holds an ADC value exactly when its index is below 1920: the roll mask and the timestamp do
not. (It is a statement of the map; the operation ADCREAD takes any 16-bit value.) -/
def Obligations.AdcRegistersAreBelow1920 : Prop :=
  (∀ i, adcBearing i = true ↔ i < 1920) ∧ registerContent 1920 = some .rollMask ∧
    ∀ i, 1921 ≤ i → i ≤ 1923 → registerContent i = some .timestamp

/-- R17 (with C1): where each field of the register map lies. -/
def Obligations.RegisterMapFields : Prop :=
  (∀ t h p, t < 13 → h < 2 → p < 64 → registerContent (t * 128 + h * 64 + p) = some (.sample t h p)) ∧
  (∀ p, p < 64 → registerContent (1664 + p) = some (.toaFall p) ∧ registerContent (1664 + 64 + p) = some (.toaRise p) ∧
    registerContent (1664 + 128 + p) = some (.totSlow p) ∧ registerContent (1664 + 192 + p) = some (.totFast p)) ∧
  ∀ i, registerContent i = none ↔ 1924 ≤ i

/-! Masks, offsets, words. -/

/-- R47: the lane of chip `k` is the `k`-th set bit, lowest first; rank is its inverse on set bits, and counts the set
bits below. -/
def Obligations.LaneAndRankAreInverse : Prop :=
  ∀ m : Word,
    (∀ k, k < popcount m → ∃ f, lane m k = some f ∧ f < 32 ∧ m.getLsbD f = true ∧ rank m f = k) ∧
    (∀ k, popcount m ≤ k → lane m k = none) ∧
    (∀ f, f < 32 → m.getLsbD f = true → lane m (rank m f) = some f) ∧
    (∀ k k' f f', lane m k = some f → lane m k' = some f' → k < k' → f < f') ∧
    ∀ f, f ≤ 32 → rank m f = ((List.range f).filter (fun n => m.getLsbD n)).length

/-- R41 (derived by the spec from R40): the offset alone decides the kind of a word, and every 32-bit value is a legal
word of each kind. Last clause, the model's (log 22, deduced from R50): the decoder refuses every offset the block does
not have. -/
def Obligations.OffsetDecidesWordKind : Prop :=
  (∀ x : Word, decodeOperation (.offset 0) (.bits x.toNat) = .ok (.echo x)) ∧
  (∀ w (x : Word), 1 ≤ w → w ≤ 30784 → decodeOperation (.offset w) (.bits x.toNat) = .ok (.plane x)) ∧
  (∀ w (x : Word), 30785 ≤ w → w ≤ 30787 → decodeOperation (.offset w) (.bits x.toNat) = .ok (.tail x)) ∧
  ∀ w (o : Operand), 30788 ≤ w → decodeOperation (.offset w) o = .error .offsetOutsideBlock

/-- R29: register and row of a PLANE word and its offset determine each other. -/
def Obligations.PlaneOffsetsInvert : Prop :=
  (∀ i j, i < 1924 → j < 16 → planeRegister (planeOffset i j) = i ∧ planeRow (planeOffset i j) = j ∧
    1 ≤ planeOffset i j ∧ planeOffset i j ≤ 30784 ∧ planeOffset i j = 1 + 16 * i + j) ∧
  ∀ w, 1 ≤ w → w ≤ 30784 → planeRegister w < 1924 ∧ planeRow w < 16 ∧
    planeOffset (planeRegister w) (planeRow w) = w

/-- R31, its byte order (D6, log 14: the spec's own choice): byte `4*w + n` is bits `8*n + 7` to `8*n` of `RAW[w]`;
and `RAW[w]` exists exactly for the words the block has. -/
def Obligations.WordsAreLittleEndian : Prop :=
  (∀ (b : RawBlock) (w n q : Nat), n < 4 → q < 8 →
    (blockWord Config.byteOrder b w).getLsbD (8 * n + q) = (memRead b.cells (4 * w + n)).getLsbD q) ∧
  ∀ (b : RawBlock) (w : Nat), rawWord b w =
    if w < b.size / 4 then some (blockWord Config.byteOrder b w) else none

/-- D6: under the other byte order the bit meant for lane `f` arrives at lane `f XOR 24`. -/
def Obligations.ByteOrderPermutesLanes : Prop :=
  ∀ (b : RawBlock) (w f : Nat), f < 32 →
    (blockWord .big b w).getLsbD f = (blockWord .little b w).getLsbD (f ^^^ 24)

/-- The model's memory (log 5): two canonical memories that read the same at every address are the same data. -/
def Obligations.CanonicalMemoryIsUnique : Prop :=
  ∀ m m' : List Host.Cell, Memory.wf m = true → Memory.wf m' = true → (∀ a, memRead m a = memRead m' a) → m = m'

/-- R40 to R45, R48, R49: every well-formed operation, presented as its row of the table has it, is decoded to
itself, with every operand at every value. (A block is well-formed in its one canonical spelling, log 5.) -/
def Obligations.DecodeInvertsEncode : Prop :=
  ∀ (i : Instr) (sel : Select), i.wf = true → selects sel i = true → decodeOperation sel (encode i) = .ok i

/-- The model's decoder (beside R41, R50, R55, which give it no refusals): it accepts nothing but what presents the
operation it answers. That it refuses too wide an operand, one of another form and an offset the block does not have is
log 22, deduced from R50; that it refuses a block not written in its one canonical form is log 5, a design choice. -/
def Obligations.DecodeAcceptsOnlyEncodings : Prop :=
  ∀ (sel : Select) (o : Operand) (i : Instr), decodeOperation sel o = .ok i →
    i.wf = true ∧ selects sel i = true ∧ encode i = o

/-- Operands written out bit by bit from the formats of R42 to R45, R48, R49 decode to what they stand for. -/
def Obligations.WrittenOutOperandsDecode : Prop :=
  decodeOperation (.offset 0) (.bits 0b00000000000000000000000000001111) = .ok (.echo 0x0000000F) ∧
  decodeOperation (.offset 4) (.bits 0b00000000000000000000000000001100) = .ok (.plane 0x0000000C) ∧
  decodeOperation (.offset 30787) (.bits 0b11011110101011011011111011101111) = .ok (.tail 0xDEADBEEF) ∧
  decodeOperation (.caller .g2b) (.bits 0b000000000110) = .ok (.g2b 0x006) ∧
  decodeOperation (.caller .remap) (.bits 0b000000000100) = .ok (.remap 4) ∧
  decodeOperation (.caller .adcread) (.bits 0b1111000000000110) = .ok (.adcread 0xF006) ∧
  decodeOperation (.caller .config) (.bits 0b10000000000000000000000000000001) = .ok (.config 0x80000001) ∧
  decodeOperation (.caller .read) (.index 3 0) = .ok (.read 3 0)

/-! The host operations. -/

/-- R76 (legal between runs is D15): CONFIG takes every mask when no run is in progress, and changes `MASK` alone; it
returns nothing (log 2 and 4: the record that `MASK` is written, and the place of a result). -/
def Obligations.ConfigWritesMask : Prop :=
  ∀ (m : Word) (s : State), s.run ≠ .busy →
    exec (.config m) s = .next { s with mask := m, maskWritten := true, reply := .nothing }

/-- R78 (the refusals are D14): READ answers the slot, with no side effect, exactly within its precondition. -/
def Obligations.ReadAnswersSlot : Prop :=
  (∀ (k i : Nat) (s : State), StateInv s → s.run = .done → k < s.nch.toNat → i < 1924 →
    ∃ v, slot s.crf k i = some v ∧ exec (.read k i) s = .next { s with reply := .register v }) ∧
  ∀ (k i : Nat) (s : State), ¬(s.run = .done ∧ k < s.nch.toNat ∧ i < 1924) → ∃ r, exec (.read k i) s = .refused r

/-- U1, U2, U3 (D14, log 2): the moves the host does not have, each refused under its own name. -/
def Obligations.MovesTheHostDoesNotHave : Prop :=
  (∀ m s, s.run = .busy → exec (.config m) s = .refused .configWhileBusy) ∧
  (∀ b s, s.run = .busy → exec (.decode b) s = .refused .decodeWhileBusy) ∧
  (∀ b s, s.run ≠ .busy → s.maskWritten = false → exec (.decode b) s = .refused .decodeBeforeConfig) ∧
  (∀ k i s, s.run ≠ .done → exec (.read k i) s = .refused .outputNotReady) ∧
  (∀ k i s, s.run = .done → s.nch.toNat ≤ k → exec (.read k i) s = .refused .noSuchChip) ∧
  ∀ k i s, s.run = .done → k < s.nch.toNat → 1924 ≤ i → exec (.read k i) s = .refused .noSuchRegister

/-- R56 (flags D5, status D3, zeroing at entry D4), right length: DECODE entry completes, with the chip count, every
slot zero, `X_COUNT` raised exactly when the count is not 4, and nothing else written but the run's own state (log 2, 4
for the two fields of the model's own that it leaves). -/
def Obligations.DecodeEntryStartsRun : Prop :=
  ∀ (b : RawBlock) (s : State), s.run ≠ .busy → s.maskWritten = true → b.size = 123152 →
    ∃ t, exec (.decode b) s = .next t ∧ t.run = .busy ∧ t.wp = 0 ∧ t.raw = some b ∧ t.nch.toNat = popcount s.mask ∧
      (∀ k i, slot t.crf k i = if k < popcount s.mask ∧ i < 1924 then some 0 else none) ∧
      t.dSize = false ∧ t.sizeRecord = none ∧ t.dEcho = false ∧ t.echoRecord = none ∧
      (t.dCount = true ↔ popcount s.mask ≠ 4) ∧
      t.countRecord = (if popcount s.mask = 4 then none else some (BitVec.ofNat 6 (popcount s.mask))) ∧
      t.mask = s.mask ∧ t.maskWritten = true ∧ t.requests = s.requests ∧ t.reply = s.reply

/-- R102 (placement D13, no other diagnostic D9), any other length: DECODE completes at once, with success and an
empty output, `X_SIZE` alone raised and `RAWLEN` recorded (for a length of whole words; else it is free, log 7). That
no block stays borrowed is log 6, deduced from R13 and R80; the place of the result returned is log 4. -/
def Obligations.WrongLengthIsRejected : Prop :=
  ∀ (b : RawBlock) (s : State), s.run ≠ .busy → s.maskWritten = true → b.size ≠ 123152 →
    ∃ t, exec (.decode b) s = .next t ∧ t.run = .rejected ∧ t.wp = 0 ∧ t.raw = none ∧ t.nch = 0 ∧ t.crf = [] ∧
      t.dSize = true ∧ t.dCount = false ∧ t.dEcho = false ∧
      (b.size % 4 = 0 → t.sizeRecord = some (b.size / 4)) ∧ t.countRecord = none ∧ t.echoRecord = none ∧
      t.mask = s.mask ∧ t.maskWritten = true ∧ t.requests = s.requests ∧ t.reply = .files 0

/-- R102, R32: "no word of the block is read": two refused blocks of one length have the same outcome, whatever their
bytes. -/
def Obligations.RejectionReadsNoWord : Prop :=
  ∀ (b b' : RawBlock) (s : State), b.size ≠ 123152 → b'.size = b.size → exec (.decode b) s = exec (.decode b') s

/-- R22: nothing is carried into a run but `MASK`: two instances with the same mask that accept a DECODE of the same
block are in the same state after its entry, but for the host's own side (its moves still to come, and the result
last returned to it, which an accepted DECODE has not yet replaced). -/
def Obligations.NothingCarriedBetweenRuns : Prop :=
  ∀ (b : RawBlock) (s s' t : State), s.mask = s'.mask → s'.run ≠ .busy → s'.maskWritten = true →
    exec (.decode b) s = .next t →
      ∃ t', exec (.decode b) s' = .next t' ∧ t' = { t with requests := s'.requests, reply := t'.reply }

/-! The stream words. -/

/-- R57 (the word pointer is D2, the flag D5), R104: ECHO completes at `WP = 0` of every run: all 32 bits compared, a
mismatch recorded, nothing else changed but `WP`. -/
def Obligations.EchoComparesWithMask : Prop :=
  ∀ (x : Word) (s : State), s.run = .busy → s.wp = 0 →
    exec (.echo x) s = .next { s with
      wp := 1,
      dEcho := if x = s.mask then s.dEcho else true,
      echoRecord := if x = s.mask then s.echoRecord else some x }

/-- R58 (the word pointer and its step are D2, log 17): PLANE completes at each `WP` in 1..30784 of every run; bit `f` of
the word is ORed into bit `15 - j` of register `i` of the chip on lane `f`, for every chip, and every other bit of every
slot, and all else but `WP`, stays. -/
def Obligations.PlaneOrsLaneBits : Prop :=
  ∀ (x : Word) (s : State), StateInv s → s.run = .busy → 1 ≤ s.wp → s.wp ≤ 30784 →
    ∃ t, exec (.plane x) s = .next t ∧ t = { s with wp := s.wp + 1, crf := t.crf } ∧
      t.crf.length = s.crf.length ∧
      (∀ k, k < s.crf.length → (lane s.mask k).isSome = true) ∧
      ∀ k f, lane s.mask k = some f → ∀ i b, i < 1924 → b < 16 →
        (slot t.crf k i).map (fun v => v.getLsbD b) = (slot s.crf k i).map (fun v => v.getLsbD b ||
          (decide (i = (s.wp - 1) / 16 ∧ b = 15 - (s.wp - 1) % 16) && x.getLsbD f))

/-- R58's remark (derived by the spec from R56): in a run, the bit a PLANE step ORs into is still clear, so the step
sets it to the lane's bit. -/
def Obligations.PlaneSetsClearBits : Prop :=
  ∀ (x : Word) (s t : State), StateInv s → Assembled s → exec (.plane x) s = .next t →
    ∀ k f, lane s.mask k = some f →
      (slot s.crf k (planeRegister s.wp)).map (fun v => v.getLsbD (15 - planeRow s.wp)) = some false ∧
      (slot t.crf k (planeRegister s.wp)).map (fun v => v.getLsbD (15 - planeRow s.wp)) = some (x.getLsbD f)

/-- R59, R60 (a) (D7, D3): TAIL completes at each `WP` in 30785..30787 and advances `WP` alone, whatever the word; the
step that leaves `WP = 30788` ends the run: DONE, the block given back, DECODE's files returned (log 4, 6). -/
def Obligations.TailOnlyAdvances : Prop :=
  (∀ (x : Word) (s : State), s.run = .busy → 30785 ≤ s.wp → s.wp ≤ 30786 →
    exec (.tail x) s = .next { s with wp := s.wp + 1 }) ∧
  ∀ (x : Word) (s : State), s.run = .busy → s.wp = 30787 →
    exec (.tail x) s = .next { s with wp := 30788, run := .done, raw := none, reply := .files s.nch }

/-- R63 (b) (derived by the spec from R61): bits on lanes whose mask bit is clear change nothing. -/
def Obligations.UnmaskedLanesAreIgnored : Prop :=
  ∀ (x y : Word) (s : State), (∀ f, f < 32 → s.mask.getLsbD f = true → x.getLsbD f = y.getLsbD f) →
    exec (.plane x) s = exec (.plane y) s

/-- R62 (derived by the spec), R35 (b): two PLANE words may be taken in either order. -/
def Obligations.PlaneWordsCommute : Prop :=
  ∀ (m x y : Word) (v w : Nat) (crf : List ChipFile),
    planeLoop m x (planeRegister v) (planeRow v) (List.range 32) 0
        (planeLoop m y (planeRegister w) (planeRow w) (List.range 32) 0 crf) =
      planeLoop m y (planeRegister w) (planeRow w) (List.range 32) 0
        (planeLoop m x (planeRegister v) (planeRow v) (List.range 32) 0 crf)

/-! Frames. -/

/-- The frame of ECHO, PLANE and TAIL (R57 to R60, R34; log 6): what a stream word leaves unchanged, every byte of the
borrowed block among it; the block, `RUN` and the result returned change only with the last word. -/
def Obligations.StreamWordFrame : Prop :=
  ∀ (i : Instr) (x : Word) (s t : State), i = .echo x ∨ i = .plane x ∨ i = .tail x → exec i s = .next t →
    t.mask = s.mask ∧ t.maskWritten = s.maskWritten ∧ t.nch = s.nch ∧ t.requests = s.requests ∧
    t.dSize = s.dSize ∧ t.sizeRecord = s.sizeRecord ∧ t.dCount = s.dCount ∧ t.countRecord = s.countRecord ∧
    (i ≠ .echo x → t.dEcho = s.dEcho ∧ t.echoRecord = s.echoRecord) ∧
    (i ≠ .plane x → t.crf = s.crf) ∧
    (∀ k q, q ≠ planeRegister s.wp → slot t.crf k q = slot s.crf k q) ∧
    (s.wp ≠ 30787 → t.run = s.run ∧ t.raw = s.raw ∧ t.reply = s.reply) ∧
    ∀ b b', s.raw = some b → t.raw = some b' → b'.size = b.size ∧ ∀ a, memRead b'.cells a = memRead b.cells a

/-- The frame of CONFIG, READ, G2B, REMAP and ADCREAD (R76, R78, R79): the result returned may change, with CONFIG the
mask, and nothing else, every byte of a borrowed block among it. -/
def Obligations.TransactionFrame : Prop :=
  ∀ (i : Instr) (s t : State),
    (∃ m, i = .config m) ∨ (∃ k q, i = .read k q) ∨ (∃ g, i = .g2b g) ∨ (∃ d, i = .remap d) ∨ (∃ r, i = .adcread r) →
    exec i s = .next t →
    ((∀ m, i ≠ .config m) → t.mask = s.mask ∧ t.maskWritten = s.maskWritten) ∧
    t.nch = s.nch ∧ t.crf = s.crf ∧ t.wp = s.wp ∧ t.run = s.run ∧ t.dSize = s.dSize ∧ t.dCount = s.dCount ∧
    t.dEcho = s.dEcho ∧ t.sizeRecord = s.sizeRecord ∧ t.countRecord = s.countRecord ∧ t.echoRecord = s.echoRecord ∧
    t.requests = s.requests ∧ t.raw.isSome = s.raw.isSome ∧
    ∀ b b', s.raw = some b → t.raw = some b' → b'.size = b.size ∧ ∀ a, memRead b'.cells a = memRead b.cells a

/-- The frame of DECODE's entry step (R56, R77; log 4): the mask and the host's moves stay, the result returned too
unless the block is rejected, and a block that is then borrowed is the operand, byte for byte. -/
def Obligations.DecodeFrame : Prop :=
  ∀ (b : RawBlock) (s t : State), exec (.decode b) s = .next t →
    t.mask = s.mask ∧ t.maskWritten = s.maskWritten ∧ t.requests = s.requests ∧
    (t.run ≠ .rejected → t.reply = s.reply) ∧
    ∀ b', t.raw = some b' → b'.size = b.size ∧ ∀ a, memRead b'.cells a = memRead b.cells a

/-! Whole-machine rules, over every operation. -/

/-- R11, R25: `MASK` is written by CONFIG, between runs, and by no other operation. -/
def Obligations.OnlyConfigWritesMask : Prop :=
  ∀ (i : Instr) (s t : State), exec i s = .next t → t.mask ≠ s.mask →
    s.run ≠ .busy ∧ i = .config t.mask

/-- R20 (D5): a flag is written at run entry or by the ECHO word, and by nothing else. -/
def Obligations.OnlyEntryAndEchoWriteFlags : Prop :=
  ∀ (i : Instr) (s t : State), exec i s = .next t →
    (t.dSize ≠ s.dSize ∨ t.dCount ≠ s.dCount → ∃ b, i = .decode b) ∧
    (t.dEcho ≠ s.dEcho → (∃ b, i = .decode b) ∨ ∃ x, i = .echo x ∧ s.wp = 0 ∧ x ≠ s.mask ∧ t.dEcho = true)

/-- R15, R25: a register file is written at run entry or by a PLANE word, and by nothing else. -/
def Obligations.OnlyEntryAndPlaneWriteRegisters : Prop :=
  ∀ (i : Instr) (s t : State), exec i s = .next t → t.crf ≠ s.crf →
    (∃ b, i = .decode b) ∨ ∃ x, i = .plane x ∧ s.run = .busy

/-- R18, R64 (D2): `WP` moves by exactly 1 with a stream word, to 0 with DECODE, and with nothing else; no word moves it
past 30788. -/
def Obligations.WordPointerMovesByOne : Prop :=
  ∀ (i : Instr) (s t : State), exec i s = .next t →
    ((∃ x, i = .echo x ∨ i = .plane x ∨ i = .tail x) ∧ t.wp = s.wp + 1 ∧ t.wp ≤ 30788) ∨
    ((∃ b, i = .decode b) ∧ t.wp = 0) ∨
    ((∀ x b, i ≠ .echo x ∧ i ≠ .plane x ∧ i ≠ .tail x ∧ i ≠ .decode b) ∧ t.wp = s.wp)

/-- R60 (D3): an operation ends a run only as its last word, and starts or refuses one only as DECODE. -/
def Obligations.RunsEndInOneOfTwoWays : Prop :=
  ∀ (i : Instr) (s t : State), exec i s = .next t → t.run ≠ s.run →
    (s.run = .busy ∧ s.wp = 30787 ∧ t.wp = 30788 ∧ t.run = .done ∧ ∃ x, i = .tail x) ∨
    (s.run ≠ .busy ∧ ∃ b, i = .decode b ∧
      ((b.size = 123152 ∧ t.run = .busy) ∨ (b.size ≠ 123152 ∧ t.run = .rejected)))

/-- R106 (D9), R101: what a run has raised, in order, is nothing, `X_SIZE` alone, or some of `X_COUNT` then `X_ECHO`. -/
def Obligations.ConditionsRaisedInOrder : Prop :=
  ∀ s : State, StateInv s →
    (raisedConditions s).map conditionCode ∈ [[], [1], [2], [3], [2, 3]]

/-- R25: what the host may read of an instance, and when. -/
def Obligations.HostReadsOnlyEndedRuns : Prop :=
  ∀ s : State, viewRun s = s.run ∧ viewMask s = s.mask ∧
    (s.run = .done ∨ s.run = .rejected → viewCount s = .ok s.nch ∧ viewFiles s = .ok s.crf ∧
      viewFlags s = .ok (s.dSize, s.dCount, s.dEcho) ∧ viewConditions s = .ok (raisedConditions s)) ∧
    (s.run = .idle ∨ s.run = .busy → viewCount s = .error .outputNotReady ∧ viewFiles s = .error .outputNotReady ∧
      viewFlags s = .error .outputNotReady ∧ viewConditions s = .error .outputNotReady)

/-! Steps. -/

/-- A step of a run takes the word at `WP`, decoded by its offset (R41, R57 to R59; D2), when no move of the host
lands: step is exec of it, with nothing around it. -/
def Obligations.StepRunsNextWord : Prop :=
  ∀ (s : State) (b : RawBlock) (i : Instr), s.run = .busy → s.raw = some b → 4 * s.wp + 3 < b.size →
    (∀ r, s.requests.head? = some r → lands s r = false) →
    decodeOperation (.offset s.wp) (.bits (blockWord Config.byteOrder b s.wp).toNat) = .ok i → step s = exec i s

/-- A move of the host that lands and decodes is executed on the state with that move taken off (log 3): between
runs any move, in a run one that is to land there and whose offset `WP` has reached. -/
def Obligations.StepServesHostMove : Prop :=
  ∀ (s : State) (a : Arrival) (op : CallerOp) (o : Operand) (rest : List Request) (i : Instr),
    s.requests = ⟨a, .call op o⟩ :: rest → decodeOperation (.caller op) o = .ok i →
    s.run ≠ .busy ∨ (∃ w, a = .atOffset w ∧ w ≤ s.wp) → step s = exec i { s with requests := rest }

/-- R114, R116 (D10; `MASK` after it is log 1, the host's moves log 11): a reset that lands leaves, in any state, a run
in progress too, the state of R114. -/
def Obligations.ResetAbandonsRun : Prop :=
  ∀ (s : State) (a : Arrival) (rest : List Request), s.requests = ⟨a, .reset⟩ :: rest →
    s.run ≠ .busy ∨ (∃ w, a = .atOffset w ∧ w ≤ s.wp) →
    ∃ t, step s = .next t ∧ t.run = .idle ∧ t.wp = 0 ∧ t.nch = 0 ∧ t.crf = [] ∧ t.raw = none ∧
      t.dSize = false ∧ t.dCount = false ∧ t.dEcho = false ∧ t.maskWritten = false ∧ t.requests = rest

/-- R115 (log 9): with no run in progress and no move of the host, the instance waits. -/
def Obligations.InstanceWaitsForHost : Prop :=
  ∀ s : State, s.run ≠ .busy → s.requests = [] → step s = .next s

/-- R24, R114 (D10): the state after reset meets both invariants, with the values the rule gives. `MASK` is left
unspecified by the rule and not stated here (log 1). -/
def Obligations.ResetMeetsInvariants : Prop :=
  StateInv State.reset ∧ Assembled State.reset ∧ State.reset.run = .idle ∧ State.reset.wp = 0 ∧
    State.reset.nch = 0 ∧ State.reset.crf = [] ∧ State.reset.raw = none ∧ State.reset.dSize = false ∧
    State.reset.dCount = false ∧ State.reset.dEcho = false

/-- Every step keeps the invariant of an instance: what `RUN` says of the rest of the state, the files and their count,
flags and their records (R14, R15, R18, R19, R20, R24, R101). -/
def Obligations.StepKeepsStateInvariant : Prop :=
  ∀ s t : State, StateInv s → step s = .next t → StateInv t

/-- Every step keeps the assembly of the output: in a run, each bit of each slot is what its word says once that word
has been consumed, and 0 before (R35, R46, R58, R119). -/
def Obligations.StepKeepsAssembly : Prop :=
  ∀ s t : State, StateInv s → Assembled s → step s = .next t → Assembled t

/-- R60, R128: "no step of an accepted run can fault or wait": in a run the next step completes when no move of the
host lands in it, and takes exactly the next word. -/
def Obligations.WordStepsNeverStop : Prop :=
  ∀ s : State, StateInv s → s.run = .busy → Undisturbed s →
    ∃ t, step s = .next t ∧ t.wp = s.wp + 1 ∧ (t.run = .busy ↔ s.wp ≠ 30787) ∧ Undisturbed t

/-- R13, R26: no step that the invariant admits fetches a word that does not exist. -/
def Obligations.NoStepFaults : Prop :=
  ∀ (s : State) (f : Fault), StateInv s → step s ≠ .fault f

/-- R67 (derived by the spec), R127, R128: from any state of a run with `WP = w`, exactly `30788 - w` steps end it, and
at every step before that it is BUSY with `WP` where it should be. -/
def Obligations.EveryRunEndsOnTime : Prop :=
  ∀ s : State, StateInv s → s.run = .busy → Undisturbed s →
    (∀ n, s.wp + n < 30788 → ∃ u, Sys2Proof.core.run n s = .next u ∧ u.run = .busy ∧ u.wp = s.wp + n) ∧
    ∃ u, Sys2Proof.core.run (30788 - s.wp) s = .next u ∧ u.run = .done ∧ u.wp = 30788

/-! The run as a function. -/

/-- R61: what `decode(raw, m)` is: the number of files, each bit of each slot, each slot as a sum, the empty result for
any other length, the flags. -/
def Obligations.DecodeFunctionOfBlock : Prop :=
  (∀ (b : RawBlock) (m : Word), b.size = 123152 →
    (decodeFunction b m).files.length = popcount m ∧
    (decodeFunction b m).dSize = false ∧ ((decodeFunction b m).dCount = true ↔ popcount m ≠ 4) ∧
    ((decodeFunction b m).dEcho = true ↔ blockWord Config.byteOrder b 0 ≠ m) ∧
    ∀ k f, lane m k = some f → ∀ i, i < 1924 → ∃ v, slot (decodeFunction b m).files k i = some v ∧
      v.toNat = ((List.range 16).map (fun j =>
        ((blockWord Config.byteOrder b (1 + 16 * i + j)).getLsbD f).toNat * 2 ^ (15 - j))).sum ∧
      ∀ n, n < 16 → v.getLsbD n = (blockWord Config.byteOrder b (1 + 16 * i + (15 - n))).getLsbD f) ∧
  ∀ (b : RawBlock) (m : Word), b.size ≠ 123152 → decodeFunction b m = ⟨[], true, false, false⟩

/-- R62 (derived by the spec; the steps are D2), R61, R67: from any instance that accepts a DECODE of a block of the
right length, 30788 further steps leave exactly what the function gives, with `RUN` DONE. The model's own: that the
block is given back (log 6, deduced from R13 and R80) and that DECODE's success (R77) stands in `reply` (log 4). -/
def Obligations.RunAgreesWithFunction : Prop :=
  ∀ (b : RawBlock) (s t : State), b.wf = true → b.size = 123152 → Undisturbed s → exec (.decode b) s = .next t →
    ∃ u, Sys2Proof.core.run 30788 t = .next u ∧ u.run = .done ∧ u.wp = 30788 ∧ u.raw = none ∧
      u.crf = (decodeFunction b s.mask).files ∧ u.nch.toNat = (decodeFunction b s.mask).files.length ∧
      u.dSize = (decodeFunction b s.mask).dSize ∧ u.dCount = (decodeFunction b s.mask).dCount ∧
      u.dEcho = (decodeFunction b s.mask).dEcho ∧ u.mask = s.mask ∧ u.requests = s.requests ∧ u.reply = .files u.nch

/-- R54, R61 (the source's round-trip property): decoding the inverse layout of any register files, under any mask
with as many set bits, gives the files again, with no echo mismatch, whatever fills the unused bits. -/
def Obligations.InterleaveRoundTrip : Prop :=
  ∀ (crf : List ChipFile) (m fill : Word), crf.length = popcount m →
    (interleave crf m fill).size = 123152 ∧ (interleave crf m fill).wf = true ∧
    decodeFunction (interleave crf m fill) m = ⟨crf, false, countMismatch m, false⟩

/-- R63 (a), (b) (derived by the spec from R61), R59: each chip's file depends on its own lane of the PLANE words alone:
not on another lane, not on the echo, not on the tail words. -/
def Obligations.ChipDependsOnItsLaneAlone : Prop :=
  ∀ (raw raw' : Nat → Word) (m : Word) (k f : Nat), lane m k = some f →
    (∀ w, 1 ≤ w → w ≤ 30784 → (raw w).getLsbD f = (raw' w).getLsbD f) →
    (decodeFiles raw m)[k]? = (decodeFiles raw' m)[k]?

/-- R63 (g) (derived by the spec from R61): with more mask bits set, every register file appears at its lane's new
rank. -/
def Obligations.MoreLanesKeepEveryChip : Prop :=
  ∀ (raw : Nat → Word) (m m' : Word) (k f : Nat), m &&& m' = m → lane m k = some f →
    (decodeFiles raw m')[rank m' f]? = (decodeFiles raw m)[k]?

/-! Several instances. -/

/-- R37, R112: a step of one instance changes no other, and what it does depends on no other. -/
def Obligations.InstancesShareNothing : Prop :=
  (∀ (boards boards' : Boards) (n : Nat), stepInstance n boards = .next boards' →
    boards'.length = boards.length ∧ ∀ m, m ≠ n → boards'[m]? = boards[m]?) ∧
  ∀ (boards boards' after : Boards) (n : Nat), boards[n]? = boards'[n]? → stepInstance n boards = .next after →
    ∃ after', stepInstance n boards' = .next after' ∧ after'[n]? = after[n]?

/-- R37, R126: the collector gives every output once, in the arrival order of the raw blocks; R94 (context): so the
planes of an event do not depend on the order in which its runs completed. -/
def Obligations.OutputsInArrivalOrder : Prop :=
  (∀ es : List Emission, (collect es).Perm es ∧ (collect es).Pairwise (fun d e => d.arrival ≤ e.arrival)) ∧
  ∀ (edge : List ChipFile → Nat → Except DownstreamFault Nat) (ident : Nat → Nat) (trigger : Option (BitVec 16))
    (es es' : List Emission), es.Perm es' → (es.map (fun e => e.arrival)).Nodup →
    emitPlanes edge ident trigger es = emitPlanes edge ident trigger es'

/-! The downstream context, outside the block (00_scope.md R4). -/

/-- R84 (context): `last` for two set bits, and a fault for any other field (U7, log 19). -/
def Obligations.RollMaskEdgesOfTwoBits : Prop :=
  (∀ a b, a < b → b < 13 → rollMaskEdges (1#13 <<< a ||| 1#13 <<< b) =
    if a = 0 ∧ b = 12 then .ok 0 else if b = a + 1 then .ok b
    else .error (.malformedRollMask (1#13 <<< a ||| 1#13 <<< b))) ∧
  ∀ r : BitVec 13, (∀ a b, a < b → b < 13 → r ≠ 1#13 <<< a ||| 1#13 <<< b) →
    rollMaskEdges r = .error (.malformedRollMask r)

/-- R85, R86 (context): the main frame of each edge, and that every slice index lies on the ring. -/
def Obligations.MainFrameOfEdge : Prop :=
  (∀ last, last ≤ 12 → (mainFrame last : Int) = (12 - ((last : Int) + 5) % 13) % 13) ∧
  (List.range 13).map mainFrame = [7, 6, 5, 4, 3, 2, 1, 0, 12, 11, 10, 9, 8] ∧
  ∀ (base : Nat) (d : Int), sliceAt base d < 13

/-- R88, R89, R91, R92 (context), R125: a chip with a well-formed edge emits, in rising order of channel, the record of
each even channel that reaches pedestal + 80, but never channel 60 of the chip of rank 2; a record has 17 values and
opens with the id. The condition of a malformed edge is surfaced (U7; whose edge a chip uses is log 19). -/
def Obligations.HitsOfOneChip : Prop :=
  (∀ (g : Nat) (c : ExtractedChip) (e : DownstreamFault), c.edge = .error e → extractChip g c = .error e) ∧
  ∀ (g : Nat) (c : ExtractedChip) (last : Nat), c.edge = .ok last →
    ∃ (channels : List Nat) (pedestal : Nat), pedestalOf (pedestalSamples c.file (mainFrame last)) = .ok pedestal ∧
      extractChip g c = .ok (channels.map (hitRecord g c.file last)) ∧ channels.Pairwise (· < ·) ∧
      (∀ ch, ch ∈ channels ↔ ch % 2 = 0 ∧ ch ≤ 62 ∧ ¬(c.index = 2 ∧ ch = 60) ∧
        pedestal + 80 ≤ (adcAt c.file (mainFrame last * 128 + (63 - ch))).toNat) ∧
      ∀ ch, (hitRecord g c.file last ch).length = 17 ∧
        (hitRecord g c.file last ch).head? = some (BitVec.ofNat 16 (g % 4 * 100 + ch))
end

