-- ==== Sys2Proof/Laws/Plane.lean ====
section
/-! SUPPORT. Lanes of a mask, and what the loop of a PLANE step does to each slot of the register files. -/

namespace Sys2Proof.Laws

open Sys2Proof.Machine

/-- A mask has at most 32 chips. -/
theorem popcount_le (m : Word) : popcount m ≤ 32 := by
  have h := List.length_filter_le (fun f => m.getLsbD f) (List.range 32)
  rw [List.length_range] at h
  exact h

/-- The chip count fits the 6 bits of `NCH`. -/
theorem toNat_popcount (m : Word) : (BitVec.ofNat 6 (popcount m)).toNat = popcount m := by
  have h := popcount_le m
  rw [BitVec.toNat_ofNat]
  omega

/-- A chip has a lane exactly when its index is below the chip count. -/
theorem lane_isSome (m : Word) (k : Nat) : (lane m k).isSome = decide (k < popcount m) := by
  unfold lane popcount
  by_cases h : k < (lanes m).length <;> simp [h]

/-- A chip's lane is a set bit of the mask. -/
theorem lane_mem {m : Word} {k f : Nat} (h : lane m k = some f) : f < 32 ∧ m.getLsbD f = true := by
  have hm : f ∈ lanes m := List.mem_of_getElem? h
  unfold lanes at hm
  rw [List.mem_filter, List.mem_range] at hm
  exact hm

/-- A PLANE step's loop changes no file's existence. -/
@[simp] theorem planeLoop_length (m x : Word) (i j : Nat) (fs : List Nat) (k : Nat) (crf : List ChipFile) :
    (planeLoop m x i j fs k crf).length = crf.length := by
  induction fs generalizing k crf with
  | nil => rfl
  | cons f fs ih => unfold planeLoop; split <;> simp [ih]

/-- What the loop does to each file: the file reached with chip index `q` gets the bit of its lane. -/
theorem planeLoop_getElem? (m x : Word) (i j : Nat) (fs : List Nat) (k : Nat) (crf : List ChipFile) (q : Nat) :
    (planeLoop m x i j fs k crf)[q]? = (crf[q]?).map (fun file =>
      if k ≤ q then
        match (fs.filter (fun f => m.getLsbD f))[q - k]? with
        | some f => orBit file i (15 - j) (x.getLsbD f)
        | none => file
      else file) := by
  induction fs generalizing k crf with
  | nil => cases h : crf[q]? <;> simp [planeLoop, h]
  | cons f fs ih =>
    unfold planeLoop
    by_cases hf : m.getLsbD f = true
    · rw [if_pos hf, ih, List.getElem?_modify]
      rw [List.filter_cons_of_pos (by simpa using hf)]
      by_cases hq : k = q
      · subst hq
        have : ¬ k + 1 ≤ k := by omega
        cases crf[k]? <;> simp [this]
      · cases crf[q]? with
        | none => simp
        | some file =>
          simp only [hq, if_false, Option.map_some]
          by_cases hk : k + 1 ≤ q
          · have hk' : k ≤ q := by omega
            have hs : q - k = (q - (k + 1)) + 1 := by omega
            simp only [hk, hk', if_true, hs, List.getElem?_cons_succ]
            rfl
          · have hk' : ¬ k ≤ q := by omega
            simp only [hk, hk', if_false]
            rfl
    · rw [if_neg hf, ih, List.filter_cons_of_neg (by simpa using hf)]

/-- What a PLANE step does to each file: the chip of lane `f` gets bit `f` of the word. -/
theorem plane_getElem? (m x : Word) (i j : Nat) (crf : List ChipFile) (k : Nat) :
    (planeLoop m x i j (List.range 32) 0 crf)[k]? = (crf[k]?).map (fun file =>
      match lane m k with
      | some f => orBit file i (15 - j) (x.getLsbD f)
      | none => file) := by
  rw [planeLoop_getElem?]
  simp only [Nat.zero_le, if_true, Nat.sub_zero]
  rfl

/-- One bit, moved to place `n`. -/
theorem getLsbD_placed {w : Nat} (v : Bool) (n b : Nat) (hb : b < w) :
    (((BitVec.ofBool v).zeroExtend w) <<< n).getLsbD b = (decide (b = n) && v) := by
  have hw : 0 < w := by omega
  simp only [BitVec.getLsbD_shiftLeft, BitVec.truncate_eq_setWidth, BitVec.getLsbD_setWidth, BitVec.getLsbD_ofBool, hb, decide_true,
    Bool.true_and]
  by_cases h : b < n
  · have : b ≠ n := by omega
    simp [h, this]
  · by_cases he : b = n
    · subst he; simp [hw]
    · have h1 : b - n ≠ 0 := by omega
      simp [h1, he]

/-- What `orBit` does to each bit of each register of a file. -/
theorem orBit_getLsbD (file : ChipFile) (i n : Nat) (v : Bool) (q b : Nat) (hq : q < 1924) (hb : b < 16) :
    ((orBit file i n v)[q]).getLsbD b = ((file[q]).getLsbD b || (decide (q = i ∧ b = n) && v)) := by
  unfold orBit
  split
  · rename_i hi
    rw [Vector.getElem_set]
    by_cases hqi : i = q
    · subst hqi
      rw [if_pos rfl, BitVec.getLsbD_or, getLsbD_placed v n b hb]
      simp
    · have : ¬ q = i := fun e => hqi e.symm
      simp [hqi, this]
  · have : ¬ q = i := by omega
    simp [this]

/-- A slot exists exactly where its file and its register do. -/
theorem slot_eq_some {crf : List ChipFile} {k i : Nat} (hk : k < crf.length) (hi : i < 1924) :
    slot crf k i = some ((crf[k])[i]) := by
  unfold slot
  rw [List.getElem?_eq_getElem hk, Option.bind_some, Vector.getElem?_eq_getElem hi]

/-- There is no slot past the files or past the registers. -/
theorem slot_eq_none {crf : List ChipFile} {k i : Nat} (h : crf.length ≤ k ∨ 1924 ≤ i) : slot crf k i = none := by
  unfold slot
  rcases h with h | h
  · rw [List.getElem?_eq_none h]; rfl
  · cases crf[k]? with
    | none => rfl
    | some file => rw [Option.bind_some, Vector.getElem?_eq_none h]

/-- What a PLANE step does to each bit of each slot. -/
theorem plane_slot_bit (m x : Word) (i j : Nat) (crf : List ChipFile) {k f : Nat} (hf : lane m k = some f)
    {q b : Nat} (hk : k < crf.length) (hq : q < 1924) (hb : b < 16) :
    (slot (planeLoop m x i j (List.range 32) 0 crf) k q).map (fun v => v.getLsbD b) =
      (slot crf k q).map (fun v => v.getLsbD b || (decide (q = i ∧ b = 15 - j) && x.getLsbD f)) := by
  have hk' : k < (planeLoop m x i j (List.range 32) 0 crf).length := by rw [planeLoop_length]; exact hk
  have h := plane_getElem? m x i j crf k
  rw [List.getElem?_eq_getElem hk', List.getElem?_eq_getElem hk, hf, Option.map_some, Option.some_inj] at h
  rw [slot_eq_some hk' hq, slot_eq_some hk hq, Option.map_some, Option.map_some, h,
    orBit_getLsbD _ _ _ _ _ _ hq hb]

end Sys2Proof.Laws
end

