-- ==== Sys2Proof/Laws/Decode.lean ====
section
/-! SUPPORT. The function of a run: the bits of an assembled register value. -/

namespace Sys2Proof.Laws

open Sys2Proof.Machine

/-- A doubled sum. -/
theorem sum_map_double (l : List Nat) (f : Nat → Nat) : (l.map (fun j => 2 * f j)).sum = 2 * (l.map f).sum := by
  induction l with
  | nil => rfl
  | cons a l ih => simp only [List.map_cons, List.sum_cons, ih]; omega

/-- Bit `b` of `n` bits summed with the first one highest. -/
theorem testBit_sum_msb_first (g : Nat → Bool) (n b : Nat) :
    (((List.range n).map (fun j => (g j).toNat <<< (n - 1 - j))).sum).testBit b = (decide (b < n) && g (n - 1 - b)) := by
  induction n generalizing b with
  | zero => simp
  | succ n ih =>
    have hd : (List.range n).map (fun j => (g j).toNat <<< (n + 1 - 1 - j)) =
        (List.range n).map (fun j => 2 * (g j).toNat <<< (n - 1 - j)) := by
      apply List.map_congr_left
      intro j hj
      have hj' : n + 1 - 1 - j = (n - 1 - j) + 1 := by have := List.mem_range.1 hj; omega
      rw [hj', Nat.shiftLeft_succ]
    rw [List.range_succ, List.map_append, List.sum_append, hd, sum_map_double]
    have hl : (List.map (fun j => (g j).toNat <<< (n + 1 - 1 - j)) [n]).sum = (g n).toNat := by simp
    rw [hl]
    have hg : (g n).toNat < 2 := by cases g n <;> decide
    cases b with
    | zero =>
      rw [Nat.testBit_zero]
      have hm : (2 * (List.map (fun j => (g j).toNat <<< (n - 1 - j)) (List.range n)).sum + (g n).toNat) % 2 = (g n).toNat := by
        omega
      rw [hm]
      cases h : g n <;> simp [h]
    | succ b =>
      have hq : (2 * (List.map (fun j => (g j).toNat <<< (n - 1 - j)) (List.range n)).sum + (g n).toNat) / 2 =
          (List.map (fun j => (g j).toNat <<< (n - 1 - j)) (List.range n)).sum := by omega
      have hs : n + 1 - 1 - (b + 1) = n - 1 - b := by omega
      rw [Nat.testBit_succ, hq, ih, hs]
      simp

/-- Bit `n` of the value of register `i` on lane `f` is that lane's bit of row `15 - n`. -/
theorem chipValue_getLsbD (raw : Nat → Word) (f i n : Nat) (hn : n < 16) :
    (chipValue raw f i).getLsbD n = (raw (planeOffset i (15 - n))).getLsbD f := by
  unfold chipValue
  rw [BitVec.getLsbD_ofNat, testBit_sum_msb_first (fun j => (raw (planeOffset i j)).getLsbD f) 16 n]
  simp [hn]

end Sys2Proof.Laws
end

