-- ==== Sys2Proof/Laws/Downstream.lean ====
section
/-! SUPPORT. The downstream context: which channels there are, that a pedestal always exists, what extracting a chip
answers, and the hits of a board's stream. -/

namespace Sys2Proof.Laws

open Sys2Proof Sys2Proof.Machine

/-- Every slice index lies on the ring. -/
theorem ringMod_lt (n : Int) : ringMod n < 13 := by unfold ringMod Config.slices; omega

/-- The channels of the loop are the even ones, 0 to 62. -/
theorem mem_evenChannels (ch : Nat) : ch ∈ evenChannels ↔ ch % 2 = 0 ∧ ch ≤ 62 := by
  simp only [evenChannels, List.mem_map, List.mem_range, Config.channelsPerGain]
  constructor
  · rintro ⟨n, hn, rfl⟩; omega
  · rintro ⟨h, hle⟩; exact ⟨ch / 2, by omega, by omega⟩

/-- A chip has exactly 32 pedestal samples. -/
@[simp] theorem length_pedestalSamples (file : ChipFile) (frame : Nat) : (pedestalSamples file frame).length = 32 := by
  simp [pedestalSamples, evenChannels, Config.channelsPerGain]

/-- So every chip has a pedestal. -/
theorem pedestalOf_pedestalSamples (file : ChipFile) (frame : Nat) :
    pedestalOf (pedestalSamples file frame) = .ok ((sortRising (pedestalSamples file frame))[15]?.getD 0) := by
  simp [pedestalOf, Config.channelsPerGain]

/-- A hit record has 17 values. -/
@[simp] theorem length_hitRecord (g : Nat) (file : ChipFile) (last ch : Nat) :
    (hitRecord g file last ch).length = Config.recordLength := by simp [hitRecord]

/-- The suppression in unsigned arithmetic. -/
theorem keepsChannel_iff (charge pedestal : Nat) : keepsChannel charge pedestal = true ↔ pedestal + 80 ≤ charge := by
  simp only [keepsChannel, decide_eq_true_eq, Config.fixedNoise, Config.fixedThreshold]; omega

/-- What extracting a chip answers: the condition of its edge, or the records of the channels it emits. -/
theorem extractChip_eq (g : Nat) (c : ExtractedChip) :
    extractChip g c = c.edge.map (fun last => (evenChannels.filter (emitsChannel c.index c.file (mainFrame last)
      ((sortRising (pedestalSamples c.file (mainFrame last)))[15]?.getD 0))).map (hitRecord g c.file last)) := by
  unfold extractChip
  cases c.edge with
  | error e => rfl
  | ok last => simp only [pedestalOf_pedestalSamples]; rfl

/-- The hit count that the stream of a board gives is the number of its hits. -/
theorem hitCount_boardStream {hits : List (List Reg)} (h : ∀ r ∈ hits, r.length = Config.recordLength) :
    hitCount (boardStream hits) = hits.length := by
  have key : (boardStream hits).length = hits.length * 17 := by
    induction hits with
    | nil => rfl
    | cons r rest ih =>
      have : r.length = 17 := h r (List.mem_cons_self ..)
      have := ih (fun r' hr' => h r' (List.mem_cons_of_mem _ hr'))
      simp only [boardStream, List.flatten_cons, List.length_append, List.length_cons] at this ⊢
      omega
  unfold hitCount; rw [key]; exact Nat.mul_div_cancel _ (by decide)

/-- The chips of a run are its register files, each under its rank. -/
theorem chipsFrom_getElem? (edge : List ChipFile → Nat → Except DownstreamFault Nat) (all : List ChipFile)
    (files : List ChipFile) (k n : Nat) :
    (chipsFrom edge all k files)[n]? = files[n]?.map (fun file => ⟨k + n, file, edge all (k + n)⟩) := by
  induction files generalizing k n with
  | nil => rfl
  | cons file rest ih =>
    cases n with
    | zero => rfl
    | succ n =>
      simp only [chipsFrom, List.getElem?_cons_succ, ih]
      rw [show k + 1 + n = k + (n + 1) by omega]

end Sys2Proof.Laws
end

