-- ==== Sys2Proof/Laws/Memory.lean ====
section
/-! SUPPORT. Memory: what a write leaves, that it keeps the canonical form, and words in byte order. -/

namespace Sys2Proof.Laws

open Sys2Proof.Machine

/-- Memory that rises from `lo` on holds 0 below `lo`. -/
theorem memRead_below {lo a : Nat} {m : List Host.Cell} (h : sortedFrom lo m = true) (ha : a < lo) :
    memRead m a = 0 := by
  induction m generalizing lo with
  | nil => rfl
  | cons p rest ih =>
    obtain ⟨c, v⟩ := p
    simp only [sortedFrom, Bool.and_eq_true, decide_eq_true_eq] at h
    have hc : c ≠ a := by omega
    simp only [memRead, hc, if_false]
    exact ih h.2 (by omega)

/-- A canonical list that may start later may start earlier. -/
theorem sortedFrom_mono {lo lo' : Nat} {m : List Host.Cell} (h : sortedFrom lo m = true) (hl : lo' ≤ lo) :
    sortedFrom lo' m = true := by
  cases m with
  | nil => rfl
  | cons p rest =>
    obtain ⟨c, v⟩ := p
    simp only [sortedFrom, Bool.and_eq_true, decide_eq_true_eq] at h ⊢
    exact ⟨⟨by omega, h.1.2⟩, h.2⟩

/-- A write keeps the canonical form. -/
theorem sortedFrom_memWrite {lo a : Nat} {v : Byte} {m : List Host.Cell} (h : sortedFrom lo m = true) (hl : lo ≤ a) :
    sortedFrom lo (memWrite m a v) = true := by
  induction m generalizing lo with
  | nil => unfold memWrite; split <;> simp_all [sortedFrom]
  | cons p rest ih =>
    obtain ⟨c, u⟩ := p
    have h' := h
    simp only [sortedFrom, Bool.and_eq_true, decide_eq_true_eq] at h'
    obtain ⟨⟨hc, hu⟩, hr⟩ := h'
    unfold memWrite
    split
    · split
      · exact h
      · rename_i hlt hv
        simp only [sortedFrom, Bool.and_eq_true, decide_eq_true_eq]
        exact ⟨⟨hl, by simpa using hv⟩, ⟨by omega, hu⟩, hr⟩
    · split
      · split
        · exact sortedFrom_mono hr (by omega)
        · simp_all [sortedFrom]
      · simp only [sortedFrom, Bool.and_eq_true, decide_eq_true_eq]
        exact ⟨⟨hc, hu⟩, ih hr (by omega)⟩

/-- Every memory operation keeps the canonical form. -/
theorem memWrite_keeps_wf {a : Nat} {v : Byte} {m : List Host.Cell} (h : Memory.wf m = true) :
    Memory.wf (memWrite m a v) = true := sortedFrom_memWrite h (Nat.zero_le a)

/-- A read after a write to rising memory. -/
theorem memRead_sorted {lo a c : Nat} {v : Byte} {m : List Host.Cell} (h : sortedFrom lo m = true) :
    memRead (memWrite m a v) c = if a = c then v else memRead m c := by
  induction m generalizing lo with
  | nil => by_cases hv : v = 0#8 <;> simp [memWrite, memRead, hv]
  | cons p rest ih =>
    obtain ⟨d, u⟩ := p
    simp only [sortedFrom, Bool.and_eq_true, decide_eq_true_eq] at h
    obtain ⟨_, hr⟩ := h
    have below : ∀ n, n < d + 1 → memRead rest n = 0 := fun n hn => memRead_below hr hn
    by_cases h1 : a < d
    · have hda : d ≠ a := by omega
      by_cases hv : v = 0#8
      · by_cases hac : a = c
        · subst hac; simp [memWrite, h1, hv, memRead, hda, below a (by omega)]
        · simp [memWrite, h1, hv, hac]
      · simp [memWrite, h1, hv, memRead]
    · by_cases h2 : a = d
      · subst h2
        by_cases hv : v = 0#8
        · by_cases hac : a = c
          · subst hac; simp [memWrite, hv, below a (by omega)]
          · simp [memWrite, hv, memRead, hac]
        · by_cases hac : a = c <;> simp [memWrite, hv, memRead, hac]
      · by_cases hd : d = c
        · subst hd
          simp [memWrite, h1, h2, memRead]
        · simp [memWrite, h1, h2, memRead, hd, ih hr]

/-- A read after a write to canonical memory: the value written at its address, the old value elsewhere. -/
theorem memRead_memWrite {a c : Nat} {v : Byte} {m : List Host.Cell} (h : Memory.wf m = true) :
    memRead (memWrite m a v) c = if a = c then v else memRead m c := memRead_sorted h

/-- A word's four bytes make the word again, in either byte order. -/
theorem wordOfBytes_byteOfWord (order : ByteOrder) (x : Word) :
    wordOfBytes order (byteOfWord order x 0) (byteOfWord order x 1) (byteOfWord order x 2) (byteOfWord order x 3) = x := by
  apply BitVec.eq_of_getLsbD_eq
  intro i hi
  have split8 : i < 8 ∨ (8 ≤ i ∧ i < 16) ∨ (16 ≤ i ∧ i < 24) ∨ 24 ≤ i := by omega
  cases order <;> simp only [wordOfBytes, byteOfWord, BitVec.getLsbD_append, BitVec.getLsbD_extractLsb'] <;>
    rcases split8 with h | ⟨h, h'⟩ | ⟨h, h'⟩ | h <;>
    simp (disch := omega) only [if_pos, if_neg, decide_eq_true, Bool.true_and, Nat.sub_sub] <;>
    (congr 1; omega)

/-- Putting a word keeps the canonical form. -/
theorem putWord_keeps_wf {m : List Host.Cell} {w : Nat} {x : Word} (h : Memory.wf m = true) :
    Memory.wf (putWord m w x) = true :=
  memWrite_keeps_wf (memWrite_keeps_wf (memWrite_keeps_wf (memWrite_keeps_wf h)))

/-- A word read after a word is put: the word at its offset, the old word elsewhere. -/
theorem blockWord_putWord {m : List Host.Cell} {w v n : Nat} {x : Word} (h : Memory.wf m = true) :
    blockWord Config.byteOrder ⟨putWord m w x, n⟩ v = if w = v then x else blockWord Config.byteOrder ⟨m, n⟩ v := by
  have h1 := memWrite_keeps_wf (a := 4 * w) (v := byteOfWord Config.byteOrder x 0) h
  have h2 := memWrite_keeps_wf (a := 4 * w + 1) (v := byteOfWord Config.byteOrder x 1) h1
  have h3 := memWrite_keeps_wf (a := 4 * w + 2) (v := byteOfWord Config.byteOrder x 2) h2
  simp only [blockWord, putWord, memRead_memWrite h3, memRead_memWrite h2, memRead_memWrite h1, memRead_memWrite h]
  by_cases hw : w = v
  · subst hw
    simp (disch := omega) only [if_true, if_neg, wordOfBytes_byteOfWord]
  · simp (disch := omega) only [if_neg]

/-- The cells of words are canonical. -/
theorem cellsOfWords_wf (ws : List Word) (w : Nat) : Memory.wf (cellsOfWords w ws) = true := by
  induction ws generalizing w with
  | nil => rfl
  | cons x rest ih => exact putWord_keeps_wf (ih (w + 1))

/-- A word of the cells of a run of words. -/
theorem blockWord_cellsOfWords (ws : List Word) (w n v : Nat) :
    blockWord Config.byteOrder ⟨cellsOfWords w ws, n⟩ v = if w ≤ v then (ws[v - w]?).getD 0 else 0 := by
  induction ws generalizing w with
  | nil => simp [cellsOfWords, blockWord, memRead, wordOfBytes]
  | cons x rest ih =>
    rw [cellsOfWords, blockWord_putWord (cellsOfWords_wf rest (w + 1)), ih]
    by_cases hw : w = v
    · subst hw; simp
    · by_cases hlt : w < v
      · have hs : v - w = (v - (w + 1)) + 1 := by omega
        rw [if_neg hw, if_pos (by omega), if_pos (by omega), hs, List.getElem?_cons_succ]
      · rw [if_neg hw, if_neg (by omega), if_neg (by omega)]

/-- The words of a block made of words are those words, in order. -/
theorem blockWord_blockOfWords (ws : List Word) (w : Nat) :
    blockWord Config.byteOrder (blockOfWords ws) w = (ws[w]?).getD 0 := by
  simpa [blockOfWords] using blockWord_cellsOfWords ws 0 (4 * ws.length) w

/-- A write below `n` lists no address from `n` on. -/
theorem cellsBelow_memWrite {n a : Nat} {v : Byte} {m : List Host.Cell} (h : cellsBelow n m = true) (ha : a < n) :
    cellsBelow n (memWrite m a v) = true := by
  induction m with
  | nil => unfold memWrite; split <;> simp_all [cellsBelow]
  | cons p rest ih =>
    obtain ⟨c, u⟩ := p
    simp only [cellsBelow, Bool.and_eq_true, decide_eq_true_eq] at h
    unfold memWrite
    split
    · split <;> simp_all [cellsBelow]
    · split
      · split <;> simp_all [cellsBelow]
      · simp_all [cellsBelow]

/-- The cells of words lie inside their block. -/
theorem cellsBelow_cellsOfWords (ws : List Word) (w n : Nat) (h : 4 * (w + ws.length) ≤ n) :
    cellsBelow n (cellsOfWords w ws) = true := by
  induction ws generalizing w with
  | nil => rfl
  | cons x rest ih =>
    rw [List.length_cons] at h
    have hr := ih (w + 1) (by omega)
    exact cellsBelow_memWrite (cellsBelow_memWrite (cellsBelow_memWrite (cellsBelow_memWrite hr (by omega)) (by omega))
      (by omega)) (by omega)

/-- A block made of words is in canonical form. -/
theorem blockOfWords_wf (ws : List Word) : (blockOfWords ws).wf = true := by
  simp [RawBlock.wf, blockOfWords, cellsOfWords_wf, cellsBelow_cellsOfWords]

end Sys2Proof.Laws
end

