-- ==== Sys2Proof/Laws/State.lean ====
section
/-! SUPPORT. Each field of the state after each of the shared updates. -/

namespace Sys2Proof.Laws

open Sys2Proof.Machine

/-! `answer` changes the reply alone. -/

@[simp] theorem answer_mask (r : Reply) (s : State) : (answer r s).mask = s.mask := rfl
@[simp] theorem answer_maskWritten (r : Reply) (s : State) : (answer r s).maskWritten = s.maskWritten := rfl
@[simp] theorem answer_raw (r : Reply) (s : State) : (answer r s).raw = s.raw := rfl
@[simp] theorem answer_nch (r : Reply) (s : State) : (answer r s).nch = s.nch := rfl
@[simp] theorem answer_crf (r : Reply) (s : State) : (answer r s).crf = s.crf := rfl
@[simp] theorem answer_wp (r : Reply) (s : State) : (answer r s).wp = s.wp := rfl
@[simp] theorem answer_run (r : Reply) (s : State) : (answer r s).run = s.run := rfl
@[simp] theorem answer_dSize (r : Reply) (s : State) : (answer r s).dSize = s.dSize := rfl
@[simp] theorem answer_dCount (r : Reply) (s : State) : (answer r s).dCount = s.dCount := rfl
@[simp] theorem answer_dEcho (r : Reply) (s : State) : (answer r s).dEcho = s.dEcho := rfl
@[simp] theorem answer_sizeRecord (r : Reply) (s : State) : (answer r s).sizeRecord = s.sizeRecord := rfl
@[simp] theorem answer_countRecord (r : Reply) (s : State) : (answer r s).countRecord = s.countRecord := rfl
@[simp] theorem answer_echoRecord (r : Reply) (s : State) : (answer r s).echoRecord = s.echoRecord := rfl
@[simp] theorem answer_requests (r : Reply) (s : State) : (answer r s).requests = s.requests := rfl
@[simp] theorem answer_reply (r : Reply) (s : State) : (answer r s).reply = r := rfl

/-! `withRequests` changes the host's moves alone. -/

@[simp] theorem withRequests_mask (rs : List Request) (s : State) : (withRequests rs s).mask = s.mask := rfl
@[simp] theorem withRequests_maskWritten (rs : List Request) (s : State) : (withRequests rs s).maskWritten = s.maskWritten := rfl
@[simp] theorem withRequests_raw (rs : List Request) (s : State) : (withRequests rs s).raw = s.raw := rfl
@[simp] theorem withRequests_nch (rs : List Request) (s : State) : (withRequests rs s).nch = s.nch := rfl
@[simp] theorem withRequests_crf (rs : List Request) (s : State) : (withRequests rs s).crf = s.crf := rfl
@[simp] theorem withRequests_wp (rs : List Request) (s : State) : (withRequests rs s).wp = s.wp := rfl
@[simp] theorem withRequests_run (rs : List Request) (s : State) : (withRequests rs s).run = s.run := rfl
@[simp] theorem withRequests_dSize (rs : List Request) (s : State) : (withRequests rs s).dSize = s.dSize := rfl
@[simp] theorem withRequests_dCount (rs : List Request) (s : State) : (withRequests rs s).dCount = s.dCount := rfl
@[simp] theorem withRequests_dEcho (rs : List Request) (s : State) : (withRequests rs s).dEcho = s.dEcho := rfl
@[simp] theorem withRequests_sizeRecord (rs : List Request) (s : State) : (withRequests rs s).sizeRecord = s.sizeRecord := rfl
@[simp] theorem withRequests_countRecord (rs : List Request) (s : State) : (withRequests rs s).countRecord = s.countRecord := rfl
@[simp] theorem withRequests_echoRecord (rs : List Request) (s : State) : (withRequests rs s).echoRecord = s.echoRecord := rfl
@[simp] theorem withRequests_requests (rs : List Request) (s : State) : (withRequests rs s).requests = rs := rfl
@[simp] theorem withRequests_reply (rs : List Request) (s : State) : (withRequests rs s).reply = s.reply := rfl

/-! `clearDiagnostics` changes the flags and their records alone. -/

@[simp] theorem clearDiagnostics_mask (s : State) : (clearDiagnostics s).mask = s.mask := rfl
@[simp] theorem clearDiagnostics_maskWritten (s : State) : (clearDiagnostics s).maskWritten = s.maskWritten := rfl
@[simp] theorem clearDiagnostics_raw (s : State) : (clearDiagnostics s).raw = s.raw := rfl
@[simp] theorem clearDiagnostics_nch (s : State) : (clearDiagnostics s).nch = s.nch := rfl
@[simp] theorem clearDiagnostics_crf (s : State) : (clearDiagnostics s).crf = s.crf := rfl
@[simp] theorem clearDiagnostics_wp (s : State) : (clearDiagnostics s).wp = s.wp := rfl
@[simp] theorem clearDiagnostics_run (s : State) : (clearDiagnostics s).run = s.run := rfl
@[simp] theorem clearDiagnostics_dSize (s : State) : (clearDiagnostics s).dSize = false := rfl
@[simp] theorem clearDiagnostics_dCount (s : State) : (clearDiagnostics s).dCount = false := rfl
@[simp] theorem clearDiagnostics_dEcho (s : State) : (clearDiagnostics s).dEcho = false := rfl
@[simp] theorem clearDiagnostics_sizeRecord (s : State) : (clearDiagnostics s).sizeRecord = none := rfl
@[simp] theorem clearDiagnostics_countRecord (s : State) : (clearDiagnostics s).countRecord = none := rfl
@[simp] theorem clearDiagnostics_echoRecord (s : State) : (clearDiagnostics s).echoRecord = none := rfl
@[simp] theorem clearDiagnostics_requests (s : State) : (clearDiagnostics s).requests = s.requests := rfl
@[simp] theorem clearDiagnostics_reply (s : State) : (clearDiagnostics s).reply = s.reply := rfl

/-! `raise` changes one flag and its record. -/

@[simp] theorem raise_mask (c : Condition) (s : State) : (raise c s).mask = s.mask := by cases c <;> rfl
@[simp] theorem raise_maskWritten (c : Condition) (s : State) : (raise c s).maskWritten = s.maskWritten := by cases c <;> rfl
@[simp] theorem raise_raw (c : Condition) (s : State) : (raise c s).raw = s.raw := by cases c <;> rfl
@[simp] theorem raise_nch (c : Condition) (s : State) : (raise c s).nch = s.nch := by cases c <;> rfl
@[simp] theorem raise_crf (c : Condition) (s : State) : (raise c s).crf = s.crf := by cases c <;> rfl
@[simp] theorem raise_wp (c : Condition) (s : State) : (raise c s).wp = s.wp := by cases c <;> rfl
@[simp] theorem raise_run (c : Condition) (s : State) : (raise c s).run = s.run := by cases c <;> rfl
@[simp] theorem raise_requests (c : Condition) (s : State) : (raise c s).requests = s.requests := by cases c <;> rfl
@[simp] theorem raise_reply (c : Condition) (s : State) : (raise c s).reply = s.reply := by cases c <;> rfl

/-! What each condition sets, and what it leaves of the other two. -/

@[simp] theorem raise_size_dSize (n : Nat) (s : State) : (raise (.size n) s).dSize = true := rfl
@[simp] theorem raise_size_sizeRecord (n : Nat) (s : State) : (raise (.size n) s).sizeRecord = some n := rfl
@[simp] theorem raise_size_dCount (n : Nat) (s : State) : (raise (.size n) s).dCount = s.dCount := rfl
@[simp] theorem raise_size_countRecord (n : Nat) (s : State) : (raise (.size n) s).countRecord = s.countRecord := rfl
@[simp] theorem raise_size_dEcho (n : Nat) (s : State) : (raise (.size n) s).dEcho = s.dEcho := rfl
@[simp] theorem raise_size_echoRecord (n : Nat) (s : State) : (raise (.size n) s).echoRecord = s.echoRecord := rfl
@[simp] theorem raise_count_dSize (n : Count) (s : State) : (raise (.count n) s).dSize = s.dSize := rfl
@[simp] theorem raise_count_sizeRecord (n : Count) (s : State) : (raise (.count n) s).sizeRecord = s.sizeRecord := rfl
@[simp] theorem raise_count_dCount (n : Count) (s : State) : (raise (.count n) s).dCount = true := rfl
@[simp] theorem raise_count_countRecord (n : Count) (s : State) : (raise (.count n) s).countRecord = some n := rfl
@[simp] theorem raise_count_dEcho (n : Count) (s : State) : (raise (.count n) s).dEcho = s.dEcho := rfl
@[simp] theorem raise_count_echoRecord (n : Count) (s : State) : (raise (.count n) s).echoRecord = s.echoRecord := rfl
@[simp] theorem raise_echo_dSize (x : Word) (s : State) : (raise (.echo x) s).dSize = s.dSize := rfl
@[simp] theorem raise_echo_sizeRecord (x : Word) (s : State) : (raise (.echo x) s).sizeRecord = s.sizeRecord := rfl
@[simp] theorem raise_echo_dCount (x : Word) (s : State) : (raise (.echo x) s).dCount = s.dCount := rfl
@[simp] theorem raise_echo_countRecord (x : Word) (s : State) : (raise (.echo x) s).countRecord = s.countRecord := rfl
@[simp] theorem raise_echo_dEcho (x : Word) (s : State) : (raise (.echo x) s).dEcho = true := rfl
@[simp] theorem raise_echo_echoRecord (x : Word) (s : State) : (raise (.echo x) s).echoRecord = some x := rfl

/-! `rejectRun`: the output is empty and `X_SIZE` is recorded. -/

@[simp] theorem rejectRun_mask (b : RawBlock) (s : State) : (rejectRun b s).mask = s.mask := rfl
@[simp] theorem rejectRun_maskWritten (b : RawBlock) (s : State) : (rejectRun b s).maskWritten = s.maskWritten := rfl
@[simp] theorem rejectRun_raw (b : RawBlock) (s : State) : (rejectRun b s).raw = none := rfl
@[simp] theorem rejectRun_nch (b : RawBlock) (s : State) : (rejectRun b s).nch = 0 := rfl
@[simp] theorem rejectRun_crf (b : RawBlock) (s : State) : (rejectRun b s).crf = [] := rfl
@[simp] theorem rejectRun_wp (b : RawBlock) (s : State) : (rejectRun b s).wp = 0 := rfl
@[simp] theorem rejectRun_run (b : RawBlock) (s : State) : (rejectRun b s).run = .rejected := rfl
@[simp] theorem rejectRun_dSize (b : RawBlock) (s : State) : (rejectRun b s).dSize = true := rfl
@[simp] theorem rejectRun_dCount (b : RawBlock) (s : State) : (rejectRun b s).dCount = false := rfl
@[simp] theorem rejectRun_dEcho (b : RawBlock) (s : State) : (rejectRun b s).dEcho = false := rfl
@[simp] theorem rejectRun_sizeRecord (b : RawBlock) (s : State) : (rejectRun b s).sizeRecord = some (rawLen b) := rfl
@[simp] theorem rejectRun_countRecord (b : RawBlock) (s : State) : (rejectRun b s).countRecord = none := rfl
@[simp] theorem rejectRun_echoRecord (b : RawBlock) (s : State) : (rejectRun b s).echoRecord = none := rfl
@[simp] theorem rejectRun_requests (b : RawBlock) (s : State) : (rejectRun b s).requests = s.requests := rfl
@[simp] theorem rejectRun_reply (b : RawBlock) (s : State) : (rejectRun b s).reply = .files 0 := rfl

/-! `acceptRun`: the register files are zeroed and the run is BUSY. -/

@[simp] theorem acceptRun_mask (b : RawBlock) (s : State) :
    (acceptRun b s).mask = s.mask := by
  unfold acceptRun; split <;> simp_all [raise]
@[simp] theorem acceptRun_maskWritten (b : RawBlock) (s : State) :
    (acceptRun b s).maskWritten = s.maskWritten := by
  unfold acceptRun; split <;> simp_all [raise]
@[simp] theorem acceptRun_raw (b : RawBlock) (s : State) :
    (acceptRun b s).raw = some b := by
  unfold acceptRun; split <;> simp_all [raise]
@[simp] theorem acceptRun_nch (b : RawBlock) (s : State) :
    (acceptRun b s).nch = BitVec.ofNat 6 (popcount s.mask) := by
  unfold acceptRun; split <;> simp_all [raise]
@[simp] theorem acceptRun_crf (b : RawBlock) (s : State) :
    (acceptRun b s).crf = List.replicate (popcount s.mask) zeroFile := by
  unfold acceptRun; split <;> simp_all [raise]
@[simp] theorem acceptRun_wp (b : RawBlock) (s : State) :
    (acceptRun b s).wp = 0 := by
  unfold acceptRun; split <;> simp_all [raise]
@[simp] theorem acceptRun_run (b : RawBlock) (s : State) :
    (acceptRun b s).run = .busy := by
  unfold acceptRun; split <;> simp_all [raise]
@[simp] theorem acceptRun_dSize (b : RawBlock) (s : State) :
    (acceptRun b s).dSize = false := by
  unfold acceptRun; split <;> simp_all [raise]
@[simp] theorem acceptRun_dCount (b : RawBlock) (s : State) :
    (acceptRun b s).dCount = countMismatch s.mask := by
  unfold acceptRun; split <;> simp_all [raise]
@[simp] theorem acceptRun_dEcho (b : RawBlock) (s : State) :
    (acceptRun b s).dEcho = false := by
  unfold acceptRun; split <;> simp_all [raise]
@[simp] theorem acceptRun_sizeRecord (b : RawBlock) (s : State) :
    (acceptRun b s).sizeRecord = none := by
  unfold acceptRun; split <;> simp_all [raise]
@[simp] theorem acceptRun_countRecord (b : RawBlock) (s : State) :
    (acceptRun b s).countRecord = (if countMismatch s.mask then some (BitVec.ofNat 6 (popcount s.mask)) else none) := by
  unfold acceptRun; split <;> simp_all [raise]
@[simp] theorem acceptRun_echoRecord (b : RawBlock) (s : State) :
    (acceptRun b s).echoRecord = none := by
  unfold acceptRun; split <;> simp_all [raise]
@[simp] theorem acceptRun_requests (b : RawBlock) (s : State) :
    (acceptRun b s).requests = s.requests := by
  unfold acceptRun; split <;> simp_all [raise]
@[simp] theorem acceptRun_reply (b : RawBlock) (s : State) :
    (acceptRun b s).reply = s.reply := by
  unfold acceptRun; split <;> simp_all [raise]

/-! `advanceWord` moves the word pointer, and ends the run after the last word. -/

@[simp] theorem advanceWord_mask (s : State) : (advanceWord s).mask = s.mask := by
  unfold advanceWord; split <;> rfl
@[simp] theorem advanceWord_maskWritten (s : State) : (advanceWord s).maskWritten = s.maskWritten := by
  unfold advanceWord; split <;> rfl
@[simp] theorem advanceWord_nch (s : State) : (advanceWord s).nch = s.nch := by
  unfold advanceWord; split <;> rfl
@[simp] theorem advanceWord_crf (s : State) : (advanceWord s).crf = s.crf := by
  unfold advanceWord; split <;> rfl
@[simp] theorem advanceWord_wp (s : State) : (advanceWord s).wp = s.wp + 1 := by
  unfold advanceWord; split <;> rfl
@[simp] theorem advanceWord_dSize (s : State) : (advanceWord s).dSize = s.dSize := by
  unfold advanceWord; split <;> rfl
@[simp] theorem advanceWord_dCount (s : State) : (advanceWord s).dCount = s.dCount := by
  unfold advanceWord; split <;> rfl
@[simp] theorem advanceWord_dEcho (s : State) : (advanceWord s).dEcho = s.dEcho := by
  unfold advanceWord; split <;> rfl
@[simp] theorem advanceWord_sizeRecord (s : State) : (advanceWord s).sizeRecord = s.sizeRecord := by
  unfold advanceWord; split <;> rfl
@[simp] theorem advanceWord_countRecord (s : State) : (advanceWord s).countRecord = s.countRecord := by
  unfold advanceWord; split <;> rfl
@[simp] theorem advanceWord_echoRecord (s : State) : (advanceWord s).echoRecord = s.echoRecord := by
  unfold advanceWord; split <;> rfl
@[simp] theorem advanceWord_requests (s : State) : (advanceWord s).requests = s.requests := by
  unfold advanceWord; split <;> rfl

/-! `resetInstance` keeps the host's moves alone. -/

@[simp] theorem resetInstance_mask (s : State) : (resetInstance s).mask = State.reset.mask := rfl
@[simp] theorem resetInstance_maskWritten (s : State) : (resetInstance s).maskWritten = State.reset.maskWritten := rfl
@[simp] theorem resetInstance_raw (s : State) : (resetInstance s).raw = State.reset.raw := rfl
@[simp] theorem resetInstance_nch (s : State) : (resetInstance s).nch = State.reset.nch := rfl
@[simp] theorem resetInstance_crf (s : State) : (resetInstance s).crf = State.reset.crf := rfl
@[simp] theorem resetInstance_wp (s : State) : (resetInstance s).wp = State.reset.wp := rfl
@[simp] theorem resetInstance_run (s : State) : (resetInstance s).run = State.reset.run := rfl
@[simp] theorem resetInstance_dSize (s : State) : (resetInstance s).dSize = State.reset.dSize := rfl
@[simp] theorem resetInstance_dCount (s : State) : (resetInstance s).dCount = State.reset.dCount := rfl
@[simp] theorem resetInstance_dEcho (s : State) : (resetInstance s).dEcho = State.reset.dEcho := rfl
@[simp] theorem resetInstance_sizeRecord (s : State) : (resetInstance s).sizeRecord = State.reset.sizeRecord := rfl
@[simp] theorem resetInstance_countRecord (s : State) : (resetInstance s).countRecord = State.reset.countRecord := rfl
@[simp] theorem resetInstance_echoRecord (s : State) : (resetInstance s).echoRecord = State.reset.echoRecord := rfl
@[simp] theorem resetInstance_requests (s : State) : (resetInstance s).requests = s.requests := rfl
@[simp] theorem resetInstance_reply (s : State) : (resetInstance s).reply = State.reset.reply := rfl

end Sys2Proof.Laws
end

