-- ==== Sys2Proof/Laws/Step.lean ====
section
/-! SUPPORT. Said once: when each meaning answers a next state and which, and what a step can do. -/

namespace Sys2Proof.Laws

open Sys2Proof.Machine

/-- When ECHO completes, and the state it leaves. -/
theorem execEcho_next {x : Word} {s t : State} : execEcho x s = .next t ↔
    (s.run = .busy ∧ s.wp = 0) ∧
      advanceWord (if echoMismatch s.mask x then raise (.echo x) s else s) = t := by
  unfold execEcho
  split <;> rename_i h <;> simp [h]

/-- When PLANE completes, and the state it leaves. -/
theorem execPlane_next {x : Word} {s t : State} : execPlane x s = .next t ↔
    (s.run = .busy ∧ 1 ≤ s.wp ∧ s.wp ≤ 30784) ∧
      advanceWord { s with
        crf := planeLoop s.mask x (planeRegister s.wp) (planeRow s.wp) (List.range 32) 0 s.crf } = t := by
  unfold execPlane
  split <;> rename_i h <;> simp [h]

/-- When TAIL completes, and the state it leaves. -/
theorem execTail_next (x : Word) {s t : State} : execTail x s = .next t ↔
    (s.run = .busy ∧ 30785 ≤ s.wp ∧ s.wp ≤ 30787) ∧ advanceWord s = t := by
  unfold execTail
  split <;> rename_i h <;> simp [h]

/-- When CONFIG completes, and the state it leaves. -/
theorem execConfig_next {m : Word} {s t : State} : execConfig m s = .next t ↔
    s.run ≠ .busy ∧ answer .nothing { s with mask := m, maskWritten := true } = t := by
  unfold execConfig
  split <;> rename_i h <;> simp [h]

/-- When DECODE's entry step completes, and the state it leaves. -/
theorem execDecode_next {b : RawBlock} {s t : State} : execDecode b s = .next t ↔
    (s.run ≠ .busy ∧ s.maskWritten = true) ∧ enterRun b s = t := by
  unfold execDecode
  split
  · simp_all
  · split <;> simp_all

/-- When READ completes, and the state it leaves. -/
theorem execRead_next {k i : Nat} {s t : State} : execRead k i s = .next t ↔
    (s.run = .done ∧ k < s.nch.toNat) ∧ ∃ v, slot s.crf k i = some v ∧ answer (.register v) s = t := by
  unfold execRead
  split
  · rename_i hd
    split
    · rename_i hk
      split <;> rename_i hv <;> simp [hd, hk, hv]
    · rename_i hk
      simp [hk]
  · rename_i hd
    simp [hd]

/-- Entry of a run, by the size of the block. -/
theorem enterRun_eq (b : RawBlock) (s : State) :
    enterRun b s = if b.size = 123152 then acceptRun b s else rejectRun b s := by
  unfold enterRun sizeMismatch
  by_cases h : b.size = 123152 <;> simp [h, Config.blockBytes]

/-- A word that is not the last leaves the run BUSY. -/
theorem advanceWord_inside {s : State} (h : s.wp + 1 ≠ 30788) : advanceWord s = { s with wp := s.wp + 1 } := by
  unfold advanceWord; rw [if_neg h]

/-- The last word ends the run. -/
theorem advanceWord_last {s : State} (h : s.wp + 1 = 30788) :
    advanceWord s = { s with wp := s.wp + 1, run := .done, raw := none, reply := .files s.nch } := by
  unfold advanceWord; rw [if_pos h]

/-- What the next step takes of a run's own words. -/
theorem fetchOwn_operation {s : State} {sel : Select} {o : Operand} (h : fetchOwn s = .operation sel o) :
    s.run = .busy ∧ sel = .offset s.wp ∧
      ∃ b x, s.raw = some b ∧ rawWord b s.wp = some x ∧ o = .bits x.toNat := by
  unfold fetchOwn at h
  split at h
  · rename_i hb
    unfold fetchWord at h
    split at h
    · simp at h
    · split at h
      · simp at h
      · rename_i b hr _ x hx
        simp only [Fetched.operation.injEq] at h
        exact ⟨hb, h.1.symm, b, x, hr, hx, h.2.symm⟩
  · simp at h

/-- The word fetched at `WP` from a borrowed block. -/
theorem fetchOwn_busy {s : State} {b : RawBlock} (hb : s.run = .busy) (hr : s.raw = some b)
    (hw : 4 * s.wp + 3 < b.size) :
    fetchOwn s = .operation (.offset s.wp) (.bits (blockWord Config.byteOrder b s.wp).toNat) := by
  unfold fetchOwn fetchWord rawWord
  simp [hb, hr, hw]

/-- What the host's next move is as something to carry out. -/
theorem moveFetched_cases (m : HostMove) :
    (m = .reset ∧ moveFetched m = .reset) ∨
      ∃ op o, m = .call op o ∧ moveFetched m = .operation (.caller op) o := by
  cases m with
  | reset => exact .inl ⟨rfl, rfl⟩
  | call op o => exact .inr ⟨op, o, rfl, rfl⟩

/-- What the next step takes: the host's first move when it lands, else what the run itself takes. -/
theorem fetch_cases (s : State) :
    (∃ r rest, s.requests = r :: rest ∧ lands s r = true ∧ fetch s = (moveFetched r.move, rest)) ∨
      fetch s = (fetchOwn s, s.requests) := by
  unfold fetch
  cases h : s.requests with
  | nil => exact .inr rfl
  | cons r rest =>
    by_cases hl : lands s r = true
    · exact .inl ⟨r, rest, rfl, hl, by simp [hl]⟩
    · exact .inr (by simp [hl])

/-- When no move of the host lands during the run, a BUSY instance takes its own next word. -/
theorem fetch_undisturbed {s : State} (hu : Undisturbed s) (hb : s.run = .busy) :
    fetch s = (fetchOwn s, s.requests) := by
  rcases fetch_cases s with ⟨r, rest, hr, hl, _⟩ | h
  · have ha := hu r (by rw [hr]; exact List.mem_cons_self)
    simp [lands, ha, hb] at hl
  · exact h

/-- With the host's moves as they are, the state is as it is. -/
theorem withRequests_self (s : State) : withRequests s.requests s = s := rfl

/-- Everything a step that answers a next state can have done. -/
theorem step_cases {s t : State} (h : step s = .next t) :
    ((fetch s).1 = .idle ∧ t = withRequests (fetch s).2 s) ∨
      ((fetch s).1 = .reset ∧ t = resetInstance (withRequests (fetch s).2 s)) ∨
      ∃ sel o i, (fetch s).1 = .operation sel o ∧ decodeOperation sel o = .ok i ∧
        exec i (withRequests (fetch s).2 s) = .next t := by
  unfold step at h
  cases hf : (fetch s).1 with
  | idle => rw [hf] at h; simp only [carryOut, Host.Outcome.next.injEq] at h; exact .inl ⟨rfl, h.symm⟩
  | reset => rw [hf] at h; simp only [carryOut, Host.Outcome.next.injEq] at h; exact .inr (.inl ⟨rfl, h.symm⟩)
  | fault why => rw [hf] at h; simp [carryOut] at h
  | operation sel o =>
    rw [hf] at h
    simp only [carryOut, runOperation] at h
    split at h
    · rename_i i hi; exact .inr (.inr ⟨sel, o, i, rfl, hi, h⟩)
    · simp at h

/-- A step whose fetch gives an operation that decodes is that operation, on the moves that are left. -/
theorem step_operation {s : State} {sel : Select} {o : Operand} {i : Instr} (hf : (fetch s).1 = .operation sel o)
    (hd : decodeOperation sel o = .ok i) : step s = exec i (withRequests (fetch s).2 s) := by
  unfold step
  rw [hf]
  simp only [carryOut, runOperation, hd]

/-- A run whose first step answers a next state goes on from there. -/
theorem run_succ {n : Nat} {s t : State} (h : step s = .next t) :
    Sys2Proof.core.run (n + 1) s = Sys2Proof.core.run n t := by
  have hs : Sys2Proof.core.step s = .next t := h
  simp only [Host.Core.run, hs]

/-- A run that has got to a state goes on from there. -/
theorem run_add {n m : Nat} {s u : State} (h : Sys2Proof.core.run n s = .next u) :
    Sys2Proof.core.run (n + m) s = Sys2Proof.core.run m u := by
  induction n generalizing s with
  | zero =>
    injection h with h
    subst h
    rw [Nat.zero_add]
  | succ n ih =>
    cases hs : step s with
    | next t => rw [run_succ hs] at h; rw [Nat.add_right_comm, run_succ hs]; exact ih h
    | fault r =>
      have hc : Sys2Proof.core.step s = .fault r := hs
      simp [Host.Core.run, hc] at h
    | refused r =>
      have hc : Sys2Proof.core.step s = .refused r := hs
      simp [Host.Core.run, hc] at h

/-- A bit vector's own number is decoded to it. -/
theorem bitsOf_toNat {n : Nat} (x : BitVec n) : bitsOf n (.bits x.toNat) = .ok x := by
  simp only [bitsOf]
  rw [if_pos x.isLt, BitVec.ofNat_toNat, BitVec.setWidth_eq]

end Sys2Proof.Laws
end

