-- ==== Sys2Proof/Laws/PerInstr.lean ====
section
/-! SUPPORT. A statement made once per operation: what presents it is in the form its row of the table gives. -/

namespace Sys2Proof.Laws.OperandForm

/-- The bits of the operand's pattern in spec/opcode_table.json ("width"), where the row has a pattern. -/
def width : Instr → Option Nat
  | .echo _ => some 32
  | .plane _ => some 32
  | .tail _ => some 32
  | .g2b _ => some 12
  | .remap _ => some 12
  | .adcread _ => some 16
  | .config _ => some 32
  | .decode _ => none
  | .read _ _ => none

/-- An operation with a pattern is presented as bits that fit it; one without is not presented as bits. -/
def Statement (i : Instr) : Prop :=
  match width i, encode i with
  | some n, .bits v => v < 2 ^ n
  | some _, _ => False
  | none, .bits _ => False
  | none, _ => True

theorem echo (x : Word) : Statement (.echo x) := x.isLt
theorem plane (x : Word) : Statement (.plane x) := x.isLt
theorem tail (t : Word) : Statement (.tail t) := t.isLt
theorem g2b (g : Sample) : Statement (.g2b g) := g.isLt
theorem remap (d : Sample) : Statement (.remap d) := d.isLt
theorem adcread (r : Reg) : Statement (.adcread r) := r.isLt
theorem config (m : Word) : Statement (.config m) := m.isLt
theorem decode (raw : RawBlock) : Statement (.decode raw) := trivial
theorem read (k i : Nat) : Statement (.read k i) := trivial

end Sys2Proof.Laws.OperandForm
end

