-- ==== Sys2Proof/Tests/Slice0.lean ====
section
/-! SUPPORT. Our own tests: ill-formed operands, operands written out from their formats, single steps with results
taken from spec/95_test_vectors.md, and for each statement with hypotheses a case that meets them. -/

namespace Sys2Proof.Tests

open Sys2Proof Sys2Proof.Machine Sys2Proof.Laws

/-- Whether an outcome is a next state of which `p` holds. -/
def leaves (o : Host.Outcome State Fault Refusal) (p : State → Bool) : Bool :=
  match o with
  | .next t => p t
  | .fault _ => false
  | .refused _ => false

/-- Whether an outcome is the given refusal. -/
def refuses (o : Host.Outcome State Fault Refusal) (r : Refusal) : Bool :=
  match o with
  | .next _ => false
  | .fault _ => false
  | .refused q => q == r

/-- The block of the right length whose every word is 0. -/
def zeroBlock : RawBlock := ⟨[], 123152⟩

/-- A block of the right length whose first word is 0x0000000F, every other word 0. -/
def echoBlock : RawBlock := ⟨putWord [] 0 0x0000000F, 123152⟩

/-- Reset, then CONFIG of a mask. -/
def ready (m : Word) : State := { State.reset with mask := m, maskWritten := true }

/-- A run under a mask on a block, every slot 0, with the words before `w` consumed. -/
def runAt (m : Word) (b : RawBlock) (w : Nat) : State :=
  { acceptRun b (ready m) with
    wp := w
    dEcho := decide (0 < w) && echoMismatch m (blockWord Config.byteOrder b 0)
    echoRecord := if decide (0 < w) && echoMismatch m (blockWord Config.byteOrder b 0)
      then some (blockWord Config.byteOrder b 0) else none }

/-- An instance that has completed a run under a mask with the given files. -/
def doneWith (m : Word) (files : List ChipFile) : State :=
  { ready m with run := .done, wp := 30788, nch := BitVec.ofNat 6 files.length, crf := files }

/-- The host's next move, to be served between runs. -/
def asks (op : CallerOp) (o : Operand) (s : State) : State := { s with requests := [⟨.afterRun, .call op o⟩] }

/-- The host's next move, to be served at once. -/
def asksNow (op : CallerOp) (o : Operand) (s : State) : State := { s with requests := [⟨.atOffset 0, .call op o⟩] }

/-! Ill-formed operands. -/

/-- Addresses must rise strictly. -/
theorem test_wf_order : (Instr.decode ⟨[(5, 1), (3, 1)], 8⟩).wf = false ∧ (Instr.decode ⟨[(3, 1), (3, 2)], 8⟩).wf = false := by
  decide

/-- No unlisted value is listed. -/
theorem test_wf_zero : (Instr.decode ⟨[(3, 0)], 8⟩).wf = false := by decide

/-- Every cell lies inside the block. -/
theorem test_wf_inside : (Instr.decode ⟨[(8, 1)], 8⟩).wf = false ∧ (Instr.decode ⟨[(7, 1)], 8⟩).wf = true := by decide

/-- The decoder refuses an ill-formed block, an operand of another form, too many bits, a word past the block. -/
theorem test_decode_refuses :
    decodeOperation (.caller .decode) (.block ⟨[(8, 1)], 8⟩) = .error .blockNotCanonical ∧
    decodeOperation (.caller .decode) (.bits 0) = .error .wrongOperandForm ∧
    decodeOperation (.caller .read) (.bits 0) = .error .wrongOperandForm ∧
    decodeOperation (.caller .g2b) (.bits 4096) = .error .operandTooWide ∧
    decodeOperation (.caller .adcread) (.bits 65536) = .error .operandTooWide ∧
    decodeOperation (.offset 30788) (.bits 0) = .error .offsetOutsideBlock := by decide

/-! Operands written out bit by bit from their formats (30_encoding.md R42 to R45, R48, R49). -/

/-- `@0: ECHO 0x80000001` of program P5. -/
theorem test_decode_echo :
    decodeOperation (.offset 0) (.bits 0b10000000000000000000000000000001) = .ok (.echo 0x80000001) := by decide

/-- The first and the last PLANE word, and a word of P2. -/
theorem test_decode_plane :
    decodeOperation (.offset 1) (.bits 0b00000000000000000000000000000101) = .ok (.plane 0x00000005) ∧
    decodeOperation (.offset 30784) (.bits 0b11111111111111111111111111111011) = .ok (.plane 0xFFFFFFFB) := by decide

/-- The first and the last TAIL word of P2. -/
theorem test_decode_tail :
    decodeOperation (.offset 30785) (.bits 0b11111111111111111111111111111111) = .ok (.tail 0xFFFFFFFF) ∧
    decodeOperation (.offset 30787) (.bits 0b11011110101011011011111011101111) = .ok (.tail 0xDEADBEEF) := by decide

/-- The function-unit operands of 95_test_vectors.md 2.3. -/
theorem test_decode_unit :
    decodeOperation (.caller .g2b) (.bits 0b101010111100) = .ok (.g2b 0xABC) ∧
    decodeOperation (.caller .remap) (.bits 0b000000000100) = .ok (.remap 4) ∧
    decodeOperation (.caller .adcread) (.bits 0b0001110000000000) = .ok (.adcread 0x1C00) := by decide

/-- `CONFIG 0x00000105` of P2, `READ 3 0` of P1, DECODE of an empty block. -/
theorem test_decode_host :
    decodeOperation (.caller .config) (.bits 0b00000000000000000000000100000101) = .ok (.config 0x00000105) ∧
    decodeOperation (.caller .read) (.index 3 0) = .ok (.read 3 0) ∧
    decodeOperation (.caller .decode) (.block ⟨[], 0⟩) = .ok (.decode ⟨[], 0⟩) := by decide

/-! Single operations, results from 95_test_vectors.md. -/

/-- 3.4: an echo of 0x000000FF under 0x0000000F. -/
theorem test_echo_mismatch : leaves (exec (.echo 0x000000FF) (runAt 0xF zeroBlock 0))
    (fun t => t.wp == 1 && t.dEcho && t.echoRecord == some 0x000000FF && t.run == .busy) = true := by decide

/-- 3.4: an equal echo raises nothing; bit 31 alone is a mismatch. -/
theorem test_echo_equal : leaves (exec (.echo 0x0000000F) (runAt 0xF zeroBlock 0)) (fun t => t.wp == 1 && !t.dEcho) = true ∧
    leaves (exec (.echo 0x8000000F) (runAt 0xF zeroBlock 0)) (fun t => t.dEcho) = true := by decide

/-- 3.3: mask 0xFFFFFFFF, offset 116, word 0x80000001: chips 0 and 31 get 0x1000 in register 7. -/
theorem test_plane_extreme_lanes : leaves (exec (.plane 0x80000001) (runAt 0xFFFFFFFF zeroBlock 116))
    (fun t => slot t.crf 0 7 == some 0x1000 && slot t.crf 31 7 == some 0x1000 && slot t.crf 30 7 == some 0 &&
      slot t.crf 0 6 == some 0 && t.wp == 117) = true := by decide

/-- 3.3: mask 0x000000F0, offset 2, word 0x00000090: bit 14 in chips 0 and 3. -/
theorem test_plane_rank_not_lane : leaves (exec (.plane 0x00000090) (runAt 0xF0 zeroBlock 2))
    (fun t => slot t.crf 0 0 == some 0x4000 && slot t.crf 1 0 == some 0 && slot t.crf 3 0 == some 0x4000 &&
      slot t.crf 4 0 == none) = true := by decide

/-- R59: a tail word changes nothing but `WP`. -/
theorem test_tail_advances : leaves (exec (.tail 0xFFFFFFFF) (runAt 0xF zeroBlock 30785))
    (fun t => t.wp == 30786 && t.run == .busy && slot t.crf 3 40 == some 0) = true := by decide

/-- R60: the last tail word ends the run. -/
theorem test_tail_ends_run : leaves (exec (.tail 0xDEADBEEF) (runAt 0x105 zeroBlock 30787))
    (fun t => t.wp == 30788 && t.run == .done && t.raw == none && t.reply == .files 3) = true := by decide

/-- 2.2: G2B of 0x123, 0xABC, 0x801, 0xF00. -/
theorem test_g2b : grayToBinary 0x123 = 0x1C2 ∧ grayToBinary 0xABC = 0xCD7 ∧ grayToBinary 0x801 = 0xFFE ∧
    grayToBinary 0xF00 = 0xA00 := by decide

/-- 2.1: the first sixteen codes. -/
theorem test_b2g : (List.range 16).map (fun n => (binaryToGray (BitVec.ofNat 12 n)).toNat) =
    [0, 1, 3, 2, 6, 7, 5, 4, 12, 13, 15, 14, 10, 11, 9, 8] := by decide

/-- 2.3: REMAP, the cases not chained. -/
theorem test_remap : remapValue 0 = 4096 ∧ remapValue 4 = 0 ∧ remapValue 5 = 5 ∧ remapValue 4095 = 4095 := by decide

/-- 2.3: ADCREAD. -/
theorem test_adcread : adcRead 0x1C00 = 2048 ∧ adcRead 0x0ABC = 3287 ∧ adcRead 0x0004 = 7 ∧ adcRead 0xFFFF = 2730 := by
  decide

/-- R76: CONFIG 0x0000000F. -/
theorem test_config : leaves (exec (.config 0xF) State.reset) (fun t => t.mask == 0xF && t.maskWritten && t.run == .idle) = true := by
  decide

/-- 3.4, 4: a right-sized block under 0x00000105: three chips, `X_COUNT` with 3, slots 0. -/
theorem test_decode_accepts : leaves (exec (.decode zeroBlock) (ready 0x105))
    (fun t => t.nch == 3 && t.dCount && t.countRecord == some 3 && t.run == .busy && t.wp == 0 &&
      slot t.crf 2 40 == some 0 && slot t.crf 3 0 == none) = true := by decide

/-- P3: 30787 words are rejected, 30787 recorded, even under a mask of three. -/
theorem test_decode_rejects : leaves (exec (.decode ⟨[], 123148⟩) (ready 0x7))
    (fun t => t.run == .rejected && t.sizeRecord == some 30787 && t.nch == 0 && !t.dCount && t.reply == .files 0) = true := by
  decide

/-- R32: a byte length that is not a multiple of 4 is rejected too. -/
theorem test_decode_rejects_ragged : leaves (exec (.decode ⟨[], 123153⟩) (ready 0xF)) (fun t => t.dSize && t.run == .rejected) = true := by
  decide

/-- R78: READ of a slot of a completed run. -/
theorem test_read : leaves (exec (.read 0 7) (doneWith 1 [orBit zeroFile 7 15 true])) (fun t => t.reply == .register 0x8000) = true := by
  decide

/-- P2: `READ 3 0` of three files is refused; so is a register past 1923. -/
theorem test_read_refused : refuses (exec (.read 3 0) (doneWith 0x105 [zeroFile, zeroFile, zeroFile])) .noSuchChip = true ∧
    refuses (exec (.read 0 1924) (doneWith 1 [zeroFile])) .noSuchRegister = true := by decide

/-- 3.2: lanes and ranks. -/
theorem test_lanes : lanes 0x105 = [0, 2, 8] ∧ lanes 0x80000001 = [0, 31] ∧
    lanes 0xF0F0 = [4, 5, 6, 7, 12, 13, 14, 15] ∧ lanes 0 = [] ∧ rank 0x105 8 = 2 := by decide

/-- 3.1: offsets. -/
theorem test_offsets : planeRegister 116 = 7 ∧ planeRow 116 = 3 ∧ planeRegister 30721 = 1920 ∧ planeRow 30721 = 0 ∧
    planeRegister 30784 = 1923 ∧ planeRow 30784 = 15 := by decide

/-- P1: the sixteen words of register 0. -/
def p1Words : List Word :=
  [0xF, 0x5, 0x4, 0x4, 0xC, 0x4, 0x4, 0xC, 0x4, 0x4, 0x4, 0xC, 0xC, 0x4, 0xC, 0x4, 0x6]

/-- P1: the values of register 0 of the four chips. -/
theorem test_p1_values : (List.range 4).map (fun f => chipValue (fun w => (p1Words[w]?).getD 0) f 0) =
    [0x8000, 0x0001, 0xFFFF, 0x1234] := by decide

/-- R31: byte 4 is the low byte of word 1. -/
theorem test_word_bytes : rawWord ⟨[(4, 0x0D), (5, 0x0C), (6, 0x0B), (7, 0x0A)], 12⟩ 1 = some 0x0A0B0C0D ∧
    rawWord ⟨[], 12⟩ 3 = none := by decide

/-! Steps. -/

/-- A run takes its own word 0 as an ECHO. -/
theorem test_step_echo : leaves (step (runAt 0xF echoBlock 0)) (fun t => t.wp == 1 && !t.dEcho) = true := by decide

/-- R79: a function-unit operation is served during a run, and the run goes on unmoved. -/
theorem test_step_unit_in_run : leaves (step (asksNow .g2b (.bits 6) (runAt 0xF zeroBlock 5)))
    (fun t => t.reply == .binary 4 && t.wp == 5 && t.run == .busy && t.requests == []) = true := by decide

/-- U3: a CONFIG that lands during a run is refused; one that waits lets the run go on. -/
theorem test_step_config_in_run : refuses (step (asksNow .config (.bits 6) (runAt 0xF zeroBlock 5))) .configWhileBusy = true ∧
    leaves (step (asks .config (.bits 6) (runAt 0xF zeroBlock 5))) (fun t => t.wp == 6 && t.mask == 0xF) = true := by decide

/-- R116: a reset during a run abandons it. -/
theorem test_step_reset : leaves (step { runAt 0xF zeroBlock 5 with requests := [⟨.atOffset 5, .reset⟩] })
    (fun t => t == State.reset) = true := by decide

/-- The moves of a host: CONFIG, then DECODE of a block with no word, then waiting. -/
theorem test_first_steps : leaves (Sys2Proof.core.run 3 { State.reset with
    requests := [⟨.afterRun, .call .config (.bits 15)⟩, ⟨.afterRun, .call .decode (.block ⟨[], 0⟩)⟩] })
    (fun t => t.run == .rejected && t.sizeRecord == some 0 && t.mask == 15) = true := by decide

/-- A bare 32-bit pattern is CONFIG's operand and runs as the first operation after reset. -/
theorem test_first_pattern : decodeTableWord 32 0 = some (.config 0) ∧ decodeTableWord 16 6 = some (.adcread 6) ∧
    leaves (step (State.reset.withFetchWord 32 15)) (fun t => t.mask == 15) = true ∧
    leaves (step (State.reset.withFetchWord 16 6)) (fun t => t.reply == .remapped 0) = true := by decide

/-! The downstream context (95_test_vectors.md 1 and 6). -/

/-- S4. -/
theorem test_roll_mask : rollMaskEdges 0x1001 = .ok 0 ∧ rollMaskEdges 0x0060 = .ok 6 ∧
    rollMaskEdges 0x0208 = .error (.malformedRollMask 0x0208) := by decide

/-- The pedestal fixture, and the slices of `last = 6`. -/
theorem test_pedestal : pedestalOf [100, 131, 102, 129, 104, 127, 106, 125, 108, 123, 110, 121, 112, 119, 114, 117, 116,
    115, 118, 113, 120, 111, 122, 109, 124, 107, 126, 105, 128, 103, 130, 101] = .ok 115 ∧
    [sliceAt (mainFrame 6) (-2), sliceAt (mainFrame 6) (-1), mainFrame 6] = [12, 0, 1] := by decide

/-- The suppression boundary. -/
theorem test_suppression : keepsChannel 195 115 = true ∧ keepsChannel 194 115 = false ∧ keepsChannel 0 115 = false ∧
    keepsChannel 4096 115 = true := by decide

/-- R90, with R89's register position of channels 0 and 60, and the ring of R85 for the first and last edge. -/
theorem test_registers_of_channel : registerPosition 0 = 63 ∧ registerPosition 60 = 3 ∧ lowGainRegister 12 63 = 1599 ∧
    highGainRegister 12 63 = 1663 ∧ [0, 1, 2, 3].map (fun n => diagnosticRegister n 3) = [1667, 1731, 1795, 1859] ∧
    mainFrame 0 = 7 ∧ mainFrame 12 = 8 := by decide

/-- S8 and R125: the chip of rank 2 never emits channel 60; the chip of rank 6, third of its group, does. -/
theorem test_disconnected_is_a_rank : emitsChannel 2 zeroFile 0 0 60 = false ∧ emitsChannel 6 zeroFile 0 0 60 = true ∧
    emitsChannel 2 zeroFile 0 0 58 = true := by decide

/-- R94, R37: the chips follow the arrival of their raw blocks, each under its rank in its own run. -/
theorem test_chips_in_arrival_order : (chipsOfEvent (fun _ k => .ok k)
    [⟨1, [zeroFile]⟩, ⟨0, [zeroFile, zeroFile]⟩]).map (fun c => c.index) = [0, 1, 0] := by decide

end Sys2Proof.Tests
end

