-- ==== Sys2Proof/Tests/Witness.lean ====
section
/-! SUPPORT. For each statement with hypotheses, a concrete case that meets all of them together, one for each clause,
at the boundary values of its range. -/

namespace Sys2Proof.Tests

open Sys2Proof Sys2Proof.Machine Sys2Proof.Laws

/-! The states used. -/

/-- A state in the middle of a run meets the invariant. -/
theorem runAt_inv (m : Word) (b : RawBlock) (w : Nat) (hw : w < 30788) (hwf : b.wf = true) (hs : b.size = 123152) :
    StateInv (runAt m b w) := by
  have hn := toNat_popcount m
  have hp := popcount_le m
  constructor
  · unfold RunInv runAt
    simp [ready, hw, hn, hwf, hs]
  · simp [runAt, ready, hn]
  · simp [runAt, ready, hn, hp]
  · simp [runAt]
  · cases h : countMismatch m <;> simp [runAt, ready, h]
  · simp only [runAt]
    split <;> simp_all

/-- A run on the block of zeros is assembled with every slot 0, wherever it stands. -/
theorem runAt_assembled (m : Word) (w : Nat) : Assembled (runAt m zeroBlock w) := by
  intro _ b hb k f hl i hi n _
  have hz : b = zeroBlock := by
    have h : (runAt m zeroBlock w).raw = some zeroBlock := by simp [runAt]
    rw [h] at hb
    exact (Option.some_inj.1 hb).symm
  have hk : k < (List.replicate (popcount m) zeroFile).length := by
    have h := lane_isSome m k
    have hm : (runAt m zeroBlock w).mask = m := by simp [runAt, ready]
    rw [hm] at hl
    rw [hl, Option.isSome_some] at h
    rw [List.length_replicate]
    exact of_decide_eq_true h.symm
  have hc : (runAt m zeroBlock w).crf = List.replicate (popcount m) zeroFile := by simp [runAt, ready]
  rw [hc, slot_eq_some hk hi, hz]
  simp [zeroFile, zeroBlock, blockWord, memRead, wordOfBytes]

/-- A state after a run meets the invariant. -/
theorem doneWith_inv (m : Word) (files : List ChipFile) (h : files.length ≤ 32) : StateInv (doneWith m files) := by
  have hn : (BitVec.ofNat 6 files.length).toNat = files.length := by rw [BitVec.toNat_ofNat]; omega
  constructor
  · unfold RunInv doneWith; simp [ready, State.reset]
  · simp [doneWith, hn]
  · simp [doneWith, hn, h]
  · simp [doneWith, ready, State.reset]
  · simp [doneWith, ready, State.reset]
  · simp [doneWith, ready, State.reset]

/-- A state between runs whose last block was rejected. -/
def rejectedState : State := rejectRun ⟨[], 0⟩ (ready 0xF)

theorem zeroBlock_wf : zeroBlock.wf = true := rfl

theorem undisturbed_runAt (m : Word) (b : RawBlock) (w : Nat) : Undisturbed (runAt m b w) := by
  intro r hr; simp [runAt, ready, State.reset] at hr

/-! The Gray decoder. -/

theorem witness_GrayDecoderRecursion : 0 < 11 ∧ 10 < 11 ∧ grayToBinary 0xFFF = grayToBinary 0xFFF := by decide

theorem witness_GrayClosedForms : 0 < 12 ∧ 11 < 12 := by decide

theorem witness_GrayInverse : 0 < 11 ∧ 10 < 11 ∧ (0#12).toNat < 4095 ∧ (4094#12).toNat < 4095 := by decide

theorem witness_RemapLaw : (1 : Sample) ≠ 0 ∧ (1 : Sample) ≠ 4 ∧ (4095 : Sample) ≠ 0 ∧ (4095 : Sample) ≠ 4 ∧
    remapValue 4 = remapValue 4 := by decide

theorem witness_AdcReadDecodesAndRemaps :
    ∀ n, n < 12 → (0xF006 : Reg).getLsbD n = (0x0006 : Reg).getLsbD n := by decide

theorem witness_GrayUnitLeavesDeinterleaver : (∃ g, Instr.g2b 0xFFF = .g2b g) ∧ (∃ d, Instr.remap 4 = .remap d) ∧
    ∃ r, Instr.adcread 0xFFFF = .adcread r := ⟨⟨_, rfl⟩, ⟨_, rfl⟩, ⟨_, rfl⟩⟩

theorem witness_AdcRegistersAreBelow1920 : 1921 ≤ 1921 ∧ 1921 ≤ 1923 ∧ 1921 ≤ 1923 ∧ 1923 ≤ 1923 := by decide

theorem witness_RegisterMapFields : 12 < 13 ∧ 1 < 2 ∧ 63 < 64 := by decide

/-! Masks, offsets, words. -/

theorem witness_LaneAndRankAreInverse : 31 < popcount 0xFFFFFFFF ∧ popcount 0xFFFFFFFF ≤ 32 ∧ 31 < 32 ∧
    (0x80000001 : Word).getLsbD 31 = true ∧ lane 0x80000001 0 = some 0 ∧ lane 0x80000001 1 = some 31 ∧ 0 < 1 ∧
    32 ≤ 32 := by decide

theorem witness_OffsetDecidesWordKind : 1 ≤ 1 ∧ 1 ≤ 30784 ∧ 30784 ≤ 30784 ∧ 30785 ≤ 30785 ∧ 30785 ≤ 30787 ∧
    30787 ≤ 30787 ∧ 30788 ≤ 30788 := by decide

theorem witness_PlaneOffsetsInvert : 0 < 1924 ∧ 1923 < 1924 ∧ 0 < 16 ∧ 15 < 16 ∧ 1 ≤ 1 ∧ 30784 ≤ 30784 := by decide

theorem witness_WordsAreLittleEndian : 0 < 4 ∧ 3 < 4 ∧ 0 < 8 ∧ 7 < 8 := by decide

theorem witness_ByteOrderPermutesLanes : 0 < 32 ∧ 31 < 32 := by decide

theorem witness_CanonicalMemoryIsUnique : Memory.wf [(0, 1), (123151, 255)] = true ∧
    Memory.wf (memWrite [(0, 1)] 123151 255) = true ∧
    ∀ a, memRead [(0, 1), (123151, 255)] a = memRead (memWrite [(0, 1)] 123151 255) a :=
  ⟨by decide, by decide, fun _ => rfl⟩

theorem witness_DecodeInvertsEncode :
    (Instr.echo 0xF).wf = true ∧ selects (.offset 0) (.echo 0xF) = true ∧
    (Instr.plane 1).wf = true ∧ selects (.offset 1) (.plane 1) = true ∧ selects (.offset 30784) (.plane 1) = true ∧
    (Instr.tail 1).wf = true ∧ selects (.offset 30785) (.tail 1) = true ∧ selects (.offset 30787) (.tail 1) = true ∧
    (Instr.g2b 6).wf = true ∧ selects (.caller .g2b) (.g2b 6) = true ∧
    (Instr.remap 4).wf = true ∧ selects (.caller .remap) (.remap 4) = true ∧
    (Instr.adcread 6).wf = true ∧ selects (.caller .adcread) (.adcread 6) = true ∧
    (Instr.config 15).wf = true ∧ selects (.caller .config) (.config 15) = true ∧
    (Instr.decode echoBlock).wf = true ∧ selects (.caller .decode) (.decode echoBlock) = true ∧
    (Instr.read 31 1923).wf = true ∧ selects (.caller .read) (.read 31 1923) = true := by decide

theorem witness_DecodeAcceptsOnlyEncodings :
    decodeOperation (.offset 30787) (.bits 4294967295) = .ok (.tail 0xFFFFFFFF) ∧
    decodeOperation (.caller .g2b) (.bits 4095) = .ok (.g2b 0xFFF) ∧
    decodeOperation (.caller .decode) (.block echoBlock) = .ok (.decode echoBlock) := by decide

/-! The host operations. -/

theorem witness_ConfigWritesMask : State.reset.run ≠ .busy ∧ (doneWith 1 [zeroFile]).run ≠ .busy ∧
    rejectedState.run ≠ .busy := by decide

theorem witness_ReadAnswersSlot :
    (StateInv (doneWith 1 [zeroFile]) ∧ (doneWith 1 [zeroFile]).run = .done ∧ 0 < (doneWith 1 [zeroFile]).nch.toNat ∧
      0 < 1924 ∧ 1923 < 1924) ∧
    ¬(State.reset.run = .done ∧ 0 < State.reset.nch.toNat ∧ 0 < 1924) ∧
    ¬((doneWith 1 [zeroFile]).run = .done ∧ 1 < (doneWith 1 [zeroFile]).nch.toNat ∧ 0 < 1924) ∧
    ¬((doneWith 1 [zeroFile]).run = .done ∧ 0 < (doneWith 1 [zeroFile]).nch.toNat ∧ 1924 < 1924) :=
  ⟨⟨doneWith_inv _ _ (by decide), by decide⟩, by decide, by decide, by decide⟩

theorem witness_MovesTheHostDoesNotHave : (runAt 0xF zeroBlock 0).run = .busy ∧
    (State.reset.run ≠ .busy ∧ State.reset.maskWritten = false) ∧ (runAt 0xF zeroBlock 0).run ≠ .done ∧
    ((doneWith 1 [zeroFile]).run = .done ∧ (doneWith 1 [zeroFile]).nch.toNat ≤ 1) ∧
    (doneWith 1 [zeroFile]).run = .done ∧ 0 < (doneWith 1 [zeroFile]).nch.toNat ∧ 1924 ≤ 1924 := by decide

theorem witness_DecodeEntryStartsRun : (ready 0).run ≠ .busy ∧ (ready 0xFFFFFFFF).run ≠ .busy ∧
    (ready 0).maskWritten = true ∧ (ready 0xFFFFFFFF).maskWritten = true ∧ zeroBlock.size = 123152 := by decide

theorem witness_WrongLengthIsRejected : (ready 0xF).run ≠ .busy ∧ (ready 0xF).maskWritten = true ∧
    (RawBlock.mk [] 123148).size ≠ 123152 ∧ (RawBlock.mk [] 123148).size % 4 = 0 ∧
    (RawBlock.mk [] 123153).size ≠ 123152 ∧ (RawBlock.mk [] 0).size ≠ 123152 := by decide

theorem witness_RejectionReadsNoWord : (RawBlock.mk [(0, 15)] 123156).size ≠ 123152 ∧
    (RawBlock.mk [] 123156).size = (RawBlock.mk [(0, 15)] 123156).size := by decide

theorem witness_NothingCarriedBetweenRuns : (ready 0xF).mask = (doneWith 0xF [zeroFile]).mask ∧
    (doneWith 0xF [zeroFile]).run ≠ .busy ∧ (doneWith 0xF [zeroFile]).maskWritten = true ∧
    ∃ t, exec (.decode zeroBlock) (ready 0xF) = .next t := ⟨rfl, by decide, rfl, _, rfl⟩

/-! The stream words. -/

theorem witness_EchoComparesWithMask : (runAt 0xF echoBlock 0).run = .busy ∧ (runAt 0xF echoBlock 0).wp = 0 ∧
    (0xF : Word) = (runAt 0xF echoBlock 0).mask ∧ (0xFF : Word) ≠ (runAt 0xF echoBlock 0).mask := by decide

theorem witness_PlaneOrsLaneBits :
    (StateInv (runAt 0xF zeroBlock 1) ∧ (runAt 0xF zeroBlock 1).run = .busy ∧ 1 ≤ (runAt 0xF zeroBlock 1).wp ∧
      (runAt 0xF zeroBlock 1).wp ≤ 30784) ∧
    (StateInv (runAt 0xF zeroBlock 30784) ∧ (runAt 0xF zeroBlock 30784).run = .busy ∧
      1 ≤ (runAt 0xF zeroBlock 30784).wp ∧ (runAt 0xF zeroBlock 30784).wp ≤ 30784) ∧
    3 < (runAt 0xF zeroBlock 1).crf.length ∧ lane (runAt 0xF zeroBlock 1).mask 3 = some 3 ∧ 1923 < 1924 ∧ 15 < 16 :=
  ⟨⟨runAt_inv _ _ _ (by decide) rfl rfl, by decide⟩, ⟨runAt_inv _ _ _ (by decide) rfl rfl, by decide⟩, by decide⟩

theorem witness_PlaneSetsClearBits : StateInv (runAt 0xF zeroBlock 30784) ∧ Assembled (runAt 0xF zeroBlock 30784) ∧
    (∃ t, exec (.plane 0xF) (runAt 0xF zeroBlock 30784) = .next t) ∧ lane (runAt 0xF zeroBlock 30784).mask 0 = some 0 :=
  ⟨runAt_inv _ _ _ (by decide) rfl rfl, runAt_assembled _ _, ⟨_, rfl⟩, by decide⟩

theorem witness_TailOnlyAdvances : (runAt 0xF zeroBlock 30785).run = .busy ∧ 30785 ≤ (runAt 0xF zeroBlock 30785).wp ∧
    (runAt 0xF zeroBlock 30785).wp ≤ 30786 ∧ (runAt 0xF zeroBlock 30786).run = .busy ∧
    (runAt 0xF zeroBlock 30786).wp ≤ 30786 ∧ (runAt 0xF zeroBlock 30787).run = .busy ∧
    (runAt 0xF zeroBlock 30787).wp = 30787 := by decide

theorem witness_UnmaskedLanesAreIgnored : ∀ f, f < 32 → (runAt 0xF zeroBlock 1).mask.getLsbD f = true →
    (0xFFFFFFF3 : Word).getLsbD f = (0x00000003 : Word).getLsbD f := by decide

/-! Frames. -/

theorem witness_StreamWordFrame : (∃ t, exec (.echo 0xF) (runAt 0xF zeroBlock 0) = .next t) ∧
    (∃ t, exec (.plane 0xF) (runAt 0xF zeroBlock 1) = .next t) ∧
    (∃ t, exec (.tail 0xF) (runAt 0xF zeroBlock 30785) = .next t) ∧
    ∃ t, exec (.tail 0xF) (runAt 0xF zeroBlock 30787) = .next t :=
  ⟨⟨_, rfl⟩, ⟨_, rfl⟩, ⟨_, rfl⟩, ⟨_, rfl⟩⟩

theorem witness_TransactionFrame : (∃ t, exec (.config 0xF) State.reset = .next t) ∧
    (∃ t, exec (.read 0 0) (doneWith 1 [zeroFile]) = .next t) ∧ (∃ t, exec (.g2b 6) (runAt 0xF zeroBlock 5) = .next t) ∧
    (∃ t, exec (.remap 4) State.reset = .next t) ∧ ∃ t, exec (.adcread 6) State.reset = .next t :=
  ⟨⟨_, rfl⟩, ⟨_, rfl⟩, ⟨_, rfl⟩, ⟨_, rfl⟩, ⟨_, rfl⟩⟩

theorem witness_DecodeFrame : (∃ t, exec (.decode zeroBlock) (ready 0xF) = .next t) ∧
    ∃ t, exec (.decode ⟨[], 0⟩) (ready 0xF) = .next t := ⟨⟨_, rfl⟩, ⟨_, rfl⟩⟩

/-! Whole-machine rules. -/

theorem witness_OnlyConfigWritesMask : ∃ t, exec (.config 0xF) State.reset = .next t ∧ t.mask ≠ State.reset.mask :=
  ⟨_, rfl, by decide⟩

theorem witness_OnlyEntryAndEchoWriteFlags :
    (∃ t, exec (.decode ⟨[], 0⟩) (ready 0xF) = .next t ∧ t.dSize ≠ (ready 0xF).dSize) ∧
    (∃ t, exec (.decode zeroBlock) (ready 0x7) = .next t ∧ t.dCount ≠ (ready 0x7).dCount) ∧
    ∃ t, exec (.echo 0xFF) (runAt 0xF zeroBlock 0) = .next t ∧ t.dEcho ≠ (runAt 0xF zeroBlock 0).dEcho :=
  ⟨⟨_, rfl, by decide⟩, ⟨_, rfl, by decide⟩, ⟨_, rfl, by decide⟩⟩

theorem witness_OnlyEntryAndPlaneWriteRegisters :
    (∃ t, exec (.decode zeroBlock) (ready 0xF) = .next t ∧ t.crf ≠ (ready 0xF).crf) ∧
    ∃ t, exec (.plane 0xF) (runAt 0xF zeroBlock 1) = .next t ∧ t.crf ≠ (runAt 0xF zeroBlock 1).crf :=
  ⟨⟨_, rfl, by decide⟩, ⟨_, rfl, fun h => absurd (congrArg (fun c => slot c 0 0) h) (by decide)⟩⟩

theorem witness_WordPointerMovesByOne : (∃ t, exec (.tail 0) (runAt 0xF zeroBlock 30787) = .next t) ∧
    (∃ t, exec (.decode zeroBlock) (ready 0xF) = .next t) ∧ ∃ t, exec (.g2b 6) (runAt 0xF zeroBlock 5) = .next t :=
  ⟨⟨_, rfl⟩, ⟨_, rfl⟩, ⟨_, rfl⟩⟩

theorem witness_RunsEndInOneOfTwoWays :
    (∃ t, exec (.tail 0) (runAt 0xF zeroBlock 30787) = .next t ∧ t.run ≠ (runAt 0xF zeroBlock 30787).run) ∧
    (∃ t, exec (.decode zeroBlock) (ready 0xF) = .next t ∧ t.run ≠ (ready 0xF).run) ∧
    ∃ t, exec (.decode ⟨[], 0⟩) (ready 0xF) = .next t ∧ t.run ≠ (ready 0xF).run :=
  ⟨⟨_, rfl, by decide⟩, ⟨_, rfl, by decide⟩, ⟨_, rfl, by decide⟩⟩

theorem witness_ConditionsRaisedInOrder : StateInv (runAt 0x7 echoBlock 1) ∧
    raisedConditions (runAt 0x7 echoBlock 1) = [.count 3, .echo 0xF] :=
  ⟨runAt_inv _ _ _ (by decide) (by decide) rfl, by decide⟩

theorem witness_HostReadsOnlyEndedRuns : (doneWith 1 [zeroFile]).run = .done ∧ rejectedState.run = .rejected ∧
    State.reset.run = .idle ∧ (runAt 0xF zeroBlock 0).run = .busy := by decide

/-! Steps. -/

theorem witness_StepRunsNextWord : (runAt 0xF zeroBlock 30787).run = .busy ∧
    (runAt 0xF zeroBlock 30787).raw = some zeroBlock ∧ 4 * (runAt 0xF zeroBlock 30787).wp + 3 < zeroBlock.size ∧
    (∀ r, (runAt 0xF zeroBlock 30787).requests.head? = some r → lands (runAt 0xF zeroBlock 30787) r = false) ∧
    decodeOperation (.offset (runAt 0xF zeroBlock 30787).wp)
      (.bits (blockWord Config.byteOrder zeroBlock (runAt 0xF zeroBlock 30787).wp).toNat) = .ok (.tail 0) :=
  ⟨rfl, by decide, by decide, fun _ h => by simp [runAt, ready, State.reset] at h, by decide⟩

theorem witness_StepServesHostMove :
    ((asks .config (.bits 15) State.reset).requests = [⟨.afterRun, .call .config (.bits 15)⟩] ∧
      decodeOperation (.caller .config) (.bits 15) = .ok (.config 15) ∧
      (asks .config (.bits 15) State.reset).run ≠ .busy) ∧
    (asksNow .g2b (.bits 6) (runAt 0xF zeroBlock 0)).requests = [⟨.atOffset 0, .call .g2b (.bits 6)⟩] ∧
    decodeOperation (.caller .g2b) (.bits 6) = .ok (.g2b 6) ∧
    ∃ w, Arrival.atOffset 0 = .atOffset w ∧ w ≤ (asksNow .g2b (.bits 6) (runAt 0xF zeroBlock 0)).wp :=
  ⟨by decide, rfl, by decide, 0, rfl, by decide⟩

theorem witness_ResetAbandonsRun :
    { runAt 0xF zeroBlock 5 with requests := [⟨.atOffset 5, .reset⟩] }.requests = [⟨.atOffset 5, .reset⟩] ∧
    (∃ w, Arrival.atOffset 5 = .atOffset w ∧
      w ≤ { runAt 0xF zeroBlock 5 with requests := [⟨.atOffset 5, .reset⟩] }.wp) ∧
    (doneWith 1 [zeroFile]).run ≠ .busy := ⟨rfl, ⟨5, rfl, by decide⟩, by decide⟩

theorem witness_InstanceWaitsForHost : State.reset.run ≠ .busy ∧ State.reset.requests = [] := by decide

theorem witness_StepKeepsStateInvariant : StateInv (runAt 0xF zeroBlock 30787) ∧
    (∃ t, step (runAt 0xF zeroBlock 30787) = .next t) ∧ StateInv (doneWith 1 [zeroFile]) ∧
    ∃ t, step (doneWith 1 [zeroFile]) = .next t :=
  ⟨runAt_inv _ _ _ (by decide) rfl rfl, ⟨_, rfl⟩, doneWith_inv _ _ (by decide), ⟨_, rfl⟩⟩

theorem witness_StepKeepsAssembly : StateInv (runAt 0xF zeroBlock 1) ∧ Assembled (runAt 0xF zeroBlock 1) ∧
    ∃ t, step (runAt 0xF zeroBlock 1) = .next t :=
  ⟨runAt_inv _ _ _ (by decide) rfl rfl, runAt_assembled _ _, ⟨_, rfl⟩⟩

theorem witness_WordStepsNeverStop : StateInv (runAt 0xF zeroBlock 0) ∧ (runAt 0xF zeroBlock 0).run = .busy ∧
    Undisturbed (runAt 0xF zeroBlock 0) ∧ StateInv (runAt 0xF zeroBlock 30787) ∧
    (runAt 0xF zeroBlock 30787).run = .busy ∧ Undisturbed (runAt 0xF zeroBlock 30787) :=
  ⟨runAt_inv _ _ _ (by decide) rfl rfl, rfl, undisturbed_runAt _ _ _, runAt_inv _ _ _ (by decide) rfl rfl, rfl,
    undisturbed_runAt _ _ _⟩

theorem witness_NoStepFaults : StateInv (runAt 0xF zeroBlock 30787) := runAt_inv _ _ _ (by decide) rfl rfl

theorem witness_EveryRunEndsOnTime : StateInv (runAt 0xF zeroBlock 0) ∧ (runAt 0xF zeroBlock 0).run = .busy ∧
    Undisturbed (runAt 0xF zeroBlock 0) ∧ (runAt 0xF zeroBlock 0).wp + 30787 < 30788 :=
  ⟨runAt_inv _ _ _ (by decide) rfl rfl, rfl, undisturbed_runAt _ _ _, by decide⟩

/-! The run as a function. -/

theorem witness_DecodeFunctionOfBlock : zeroBlock.size = 123152 ∧ lane 0x80000001 1 = some 31 ∧ 1923 < 1924 ∧ 15 < 16 ∧
    (RawBlock.mk [] 123153).size ≠ 123152 := by decide

theorem witness_RunAgreesWithFunction : echoBlock.wf = true ∧ echoBlock.size = 123152 ∧ Undisturbed (ready 0x105) ∧
    ∃ t, exec (.decode echoBlock) (ready 0x105) = .next t :=
  ⟨by decide, rfl, fun r hr => by simp [ready, State.reset] at hr, _, rfl⟩

theorem witness_InterleaveRoundTrip : [zeroFile].length = popcount 0x80000000 ∧
    (List.replicate 32 zeroFile).length = popcount 0xFFFFFFFF := by decide

theorem witness_ChipDependsOnItsLaneAlone : lane 0x105 1 = some 2 ∧
    ∀ w, 1 ≤ w → w ≤ 30784 → (Function.const Nat 0xFFFFFFFB#32 w).getLsbD 2 = (Function.const Nat 0#32 w).getLsbD 2 :=
  ⟨by decide, fun w _ _ => by simp only [Function.const]; decide⟩

theorem witness_MoreLanesKeepEveryChip : (0x105 : Word) &&& 0x10D = 0x105 ∧ lane 0x105 2 = some 8 := by decide

/-! Several instances. -/

theorem witness_InstancesShareNothing : (∃ bs, stepInstance 1 [State.reset, ready 0xF] = .next bs) ∧ 0 ≠ 1 ∧
    [State.reset, ready 0xF][1]? = [ready 0x7, ready 0xF][1]? := ⟨⟨_, rfl⟩, by decide, rfl⟩

theorem witness_OutputsInArrivalOrder : ([⟨1, []⟩, ⟨0, []⟩] : List Emission).Perm [⟨0, []⟩, ⟨1, []⟩] ∧
    (([⟨1, []⟩, ⟨0, []⟩] : List Emission).map (fun e => e.arrival)).Nodup := ⟨.swap .., by decide⟩

/-! The downstream context. -/

theorem witness_HitsOfOneChip : (⟨6, zeroFile, .ok 0⟩ : ExtractedChip).edge = .ok 0 ∧
    (⟨2, zeroFile, .ok 12⟩ : ExtractedChip).edge = .ok 12 ∧ (⟨2, zeroFile, .error (.malformedRollMask 0)⟩ : ExtractedChip).edge =
      .error (.malformedRollMask 0) := ⟨rfl, rfl, rfl⟩

theorem witness_RollMaskEdgesOfTwoBits : 0 < 12 ∧ 12 < 13 ∧ 5 < 6 ∧ 6 < 13 ∧
    ∀ a b, a < b → b < 13 → (0b111 : BitVec 13) ≠ 1#13 <<< a ||| 1#13 <<< b := by
  have h : ∀ b, b < 13 → ∀ a, a < b → (0b111 : BitVec 13) ≠ 1#13 <<< a ||| 1#13 <<< b := by decide
  exact ⟨by decide, by decide, by decide, by decide, fun a b ha hb => h b hb a ha⟩

theorem witness_MainFrameOfEdge : 0 ≤ 12 ∧ 12 ≤ 12 := by decide

end Sys2Proof.Tests
end

section
/-! The byte order of a raw word (20_memory.md R31, 92_eei_decisions.md D6), and which raw words exist (R8, R26). -/

namespace Sys2Proof.Machine

/-- D6: in little-endian order the byte at offset `n` from the lowest address fills bits `8*n` to `8*n + 7`. -/
theorem getLsbD_wordOfBytes_little (byteAt : Nat → Byte) {n q : Nat} (hn : n < 4) (hq : q < 8) :
    (wordOfBytes .little (byteAt 0) (byteAt 1) (byteAt 2) (byteAt 3)).getLsbD (8 * n + q) =
      (byteAt n).getLsbD q := by
  simp only [wordOfBytes, BitVec.getLsbD_append]
  have byte : n = 0 ∨ n = 1 ∨ n = 2 ∨ n = 3 := by omega
  rcases byte with rfl | rfl | rfl | rfl
  · simp (disch := omega) only [if_pos, Nat.mul_zero, Nat.zero_add]
  · simp (disch := omega) only [if_pos, if_neg, Nat.mul_one, Nat.add_sub_cancel_left]
  · simp (disch := omega) only [if_pos, if_neg, Nat.sub_sub, Nat.add_sub_cancel_left]
  · simp (disch := omega) only [if_neg, Nat.sub_sub, Nat.add_sub_cancel_left]

/-- R31 with D6, for the word at word offset `w` of a block. -/
theorem getLsbD_blockWord (b : RawBlock) (w : Nat) {n q : Nat} (hn : n < 4) (hq : q < 8) :
    (blockWord Config.byteOrder b w).getLsbD (8 * n + q) = (memRead b.cells (4 * w + n)).getLsbD q :=
  getLsbD_wordOfBytes_little (fun n => memRead b.cells (4 * w + n)) hn hq

/-- The last byte of word `w` is inside the block exactly when `w` is below the number of whole words. -/
theorem rawWord_eq (b : RawBlock) (w : Nat) :
    rawWord b w = if w < b.size / 4 then some (blockWord Config.byteOrder b w) else none := by
  have hbound : 4 * w + 3 < b.size ↔ w < b.size / 4 := by omega
  simp only [rawWord, hbound]

/-- Settles O12: the bits of a word byte by byte, and the bound on its last byte. -/
theorem wordsAreLittleEndian : Obligations.WordsAreLittleEndian :=
  ⟨fun b w _ _ hn hq => getLsbD_blockWord b w hn hq, rawWord_eq⟩

end Sys2Proof.Machine
end

section
/-! What an operation that completes has done, said once; then the rules about single parts of the state that hold of
every operation (10_state.md R11, R15, R18, R20, R25). -/

namespace Sys2Proof.Machine

open Sys2Proof.Laws

/-- A comparison of ECHO reports exactly a word that is not `MASK`. -/
theorem echoMismatch_iff (m x : Word) : echoMismatch m x = true ↔ x ≠ m := by simp [echoMismatch]

/-- The operations that leave the block as it is and only return a result (42_host_operations.md R78, R79). -/
def onlyReturns : Instr → Bool
  | .g2b _ | .remap _ | .adcread _ | .read _ _ => true
  | .echo _ | .plane _ | .tail _ | .config _ | .decode _ => false

/-- What operation `i` has done to `s` when it completes: its precondition and the state it leaves. -/
inductive Completion (s : State) : Instr → State → Prop where
  | echo (x : Word) (busy : s.run = .busy) (start : s.wp = 0) :
      Completion s (.echo x) { s with
        wp := 1, dEcho := echoMismatch s.mask x || s.dEcho,
        echoRecord := if echoMismatch s.mask x then some x else s.echoRecord }
  | plane (x : Word) (busy : s.run = .busy) (first : 1 ≤ s.wp) (last : s.wp ≤ 30784) :
      Completion s (.plane x) (advanceWord { s with
        crf := planeLoop s.mask x (planeRegister s.wp) (planeRow s.wp) (List.range 32) 0 s.crf })
  | tail (x : Word) (busy : s.run = .busy) (first : 30785 ≤ s.wp) (last : s.wp ≤ 30787) :
      Completion s (.tail x) (advanceWord s)
  | config (m : Word) (idle : s.run ≠ .busy) :
      Completion s (.config m) (answer .nothing { s with mask := m, maskWritten := true })
  | accept (b : RawBlock) (idle : s.run ≠ .busy) (ready : s.maskWritten = true) (size : b.size = 123152) :
      Completion s (.decode b) (acceptRun b s)
  | reject (b : RawBlock) (idle : s.run ≠ .busy) (ready : s.maskWritten = true) (size : b.size ≠ 123152) :
      Completion s (.decode b) (rejectRun b s)
  | result (i : Instr) (r : Reply) (returns : onlyReturns i = true) : Completion s i (answer r s)

/-- Every operation that answers a next state has completed in one of these ways. -/
theorem completion_of_exec {i : Instr} {s t : State} (h : exec i s = .next t) : Completion s i t := by
  cases i with
  | echo x =>
    obtain ⟨⟨busy, start⟩, rfl⟩ := execEcho_next.1 h
    have completed := Completion.echo x busy start
    cases hx : echoMismatch s.mask x <;> rw [advanceWord_inside (by simp [start])] <;>
      simpa [hx, start, raise] using completed
  | plane x =>
    obtain ⟨⟨busy, first, last⟩, rfl⟩ := execPlane_next.1 h
    exact .plane x busy first last
  | tail x =>
    obtain ⟨⟨busy, first, last⟩, rfl⟩ := (execTail_next x).1 h
    exact .tail x busy first last
  | config m =>
    obtain ⟨idle, rfl⟩ := execConfig_next.1 h
    exact .config m idle
  | decode b =>
    obtain ⟨⟨idle, ready⟩, rfl⟩ := execDecode_next.1 h
    rw [enterRun_eq]
    split
    · exact .accept b idle ready ‹_›
    · exact .reject b idle ready ‹_›
  | read k i =>
    obtain ⟨-, v, -, rfl⟩ := execRead_next.1 h
    exact .result _ _ rfl
  | g2b g => cases h; exact .result _ _ rfl
  | remap d => cases h; exact .result _ _ rfl
  | adcread r => cases h; exact .result _ _ rfl

/-- Settles O34: of the ways to complete, CONFIG alone leaves another `MASK`. -/
theorem onlyConfigWritesMask : Obligations.OnlyConfigWritesMask := by
  intro i s t h hne
  cases completion_of_exec h with
  | config m idle => exact ⟨idle, rfl⟩
  | echo | plane | tail | accept | reject | result => simp at hne

/-- Settles O35: outside DECODE, ECHO alone touches a flag, and that is `D_ECHO`, which it can only set. -/
theorem onlyEntryAndEchoWriteFlags : Obligations.OnlyEntryAndEchoWriteFlags := by
  intro i s t h
  cases completion_of_exec h with
  | accept b | reject b => exact ⟨fun _ => ⟨b, rfl⟩, fun _ => .inl ⟨b, rfl⟩⟩
  | plane | tail | config | result => simp
  | echo x busy start =>
    refine ⟨by simp, fun hne => .inr ⟨x, rfl, start, ?_⟩⟩
    have differs : echoMismatch s.mask x = true := by
      by_contra hx
      simp [hx] at hne
    exact ⟨(echoMismatch_iff _ _).1 differs, by simp [differs]⟩

/-- Settles O36: outside DECODE, PLANE alone touches the register files. -/
theorem onlyEntryAndPlaneWriteRegisters : Obligations.OnlyEntryAndPlaneWriteRegisters := by
  intro i s t h hne
  cases completion_of_exec h with
  | accept b | reject b => exact .inl ⟨b, rfl⟩
  | plane x busy => exact .inr ⟨x, rfl, busy⟩
  | echo | tail | config | result => simp at hne

/-- Settles O37, by the ways to complete; the bound is that of the offsets at which each stream word completes. -/
theorem wordPointerMovesByOne : Obligations.WordPointerMovesByOne := by
  intro i s t h
  cases completion_of_exec h with
  | echo x busy start => exact .inl ⟨⟨x, .inl rfl⟩, by simp [start], by simp⟩
  | plane x busy first last => exact .inl ⟨⟨x, .inr (.inl rfl)⟩, by simp, by simp; omega⟩
  | tail x busy first last => exact .inl ⟨⟨x, .inr (.inr rfl)⟩, by simp, by simp; omega⟩
  | accept b | reject b => exact .inr (.inl ⟨⟨b, rfl⟩, by simp⟩)
  | config m => exact .inr (.inr ⟨by simp, rfl⟩)
  | result i r returns =>
    refine .inr (.inr ⟨fun x b => ⟨?_, ?_, ?_, ?_⟩, rfl⟩) <;> rintro rfl <;> cases returns

/-- DECODE's accepted entry takes nothing but `MASK` from the state it finds, beside the host's side. -/
theorem acceptRun_eq_of_mask_eq (b : RawBlock) {s s' : State} (mask : s.mask = s'.mask)
    (written : s.maskWritten = s'.maskWritten) :
    acceptRun b s' = { acceptRun b s with requests := s'.requests, reply := s'.reply } := by
  cases hc : countMismatch s'.mask <;> simp [acceptRun, mask, written, hc, raise, clearDiagnostics]

/-- DECODE's rejected entry takes nothing but `MASK` from the state it finds, beside the host's moves. -/
theorem rejectRun_eq_of_mask_eq (b : RawBlock) {s s' : State} (mask : s.mask = s'.mask)
    (written : s.maskWritten = s'.maskWritten) :
    rejectRun b s' = { rejectRun b s with requests := s'.requests } := by
  simp [rejectRun, mask, written, raise, clearDiagnostics]

/-- Settles O24, by the block's size, which decides between the two entries. -/
theorem nothingCarriedBetweenRuns : Obligations.NothingCarriedBetweenRuns := by
  intro b s s' t mask idle' written' h
  obtain ⟨⟨-, written⟩, rfl⟩ := execDecode_next.1 h
  refine ⟨enterRun b s', execDecode_next.2 ⟨⟨idle', written'⟩, rfl⟩, ?_⟩
  have same := written.trans written'.symm
  rw [enterRun_eq, enterRun_eq]
  split
  · rw [acceptRun_eq_of_mask_eq b mask same]
  · rw [rejectRun_eq_of_mask_eq b mask same]

end Sys2Proof.Machine
end

section
/-! Single definitions of the state: the register map (10_state.md R17), what the host may read (R25), and the
canonical form of memory (log 5). -/

namespace Sys2Proof.Machine

open Sys2Proof.Laws

/-- R17: the samples come first, slice by slice, gain by gain. -/
theorem registerContent_sample {t h p : Nat} (ht : t < 13) (hh : h < 2) (hp : p < 64) :
    registerContent (t * 128 + h * 64 + p) = some (.sample t h p) := by
  have below : t * 128 + h * 64 + p < 1664 := by omega
  have slice : (t * 128 + h * 64 + p) / 128 = t := by omega
  have gain : (t * 128 + h * 64 + p) % 128 / 64 = h := by omega
  have position : (t * 128 + h * 64 + p) % 64 = p := by omega
  rw [registerContent, if_pos below, slice, gain, position]

/-- R17, C1: the four diagnostic fields follow, 64 positions each. -/
theorem registerContent_diagnostic {p : Nat} (hp : p < 64) :
    registerContent (1664 + p) = some (.toaFall p) ∧ registerContent (1664 + 64 + p) = some (.toaRise p) ∧
      registerContent (1664 + 128 + p) = some (.totSlow p) ∧ registerContent (1664 + 192 + p) = some (.totFast p) := by
  refine ⟨?_, ?_, ?_, ?_⟩ <;> simp (disch := omega) only [registerContent, if_pos, if_neg, Nat.reduceAdd, Nat.add_sub_cancel_left]

/-- R17: every register of the 1924 holds something, and there is no other. -/
theorem registerContent_eq_none_iff (i : Nat) : registerContent i = none ↔ 1924 ≤ i := by
  unfold registerContent
  (repeat' split) <;> simp only [reduceCtorEq, true_iff, false_iff] <;> omega

/-- Settles O8: the samples, the diagnostic fields, and the end of the map. -/
theorem registerMapFields : Obligations.RegisterMapFields :=
  ⟨fun _ _ _ => registerContent_sample, fun _ => registerContent_diagnostic, registerContent_eq_none_iff⟩

/-- R25: a run has ended exactly when `RUN` is DONE or REJECTED. -/
theorem runEnded_iff (s : State) : runEnded s = true ↔ s.run = .done ∨ s.run = .rejected := by simp [runEnded]

/-- Settles O40: each view is given exactly when the run has ended. -/
theorem hostReadsOnlyEndedRuns : Obligations.HostReadsOnlyEndedRuns := by
  refine fun s => ⟨rfl, rfl, fun ended => ?_, fun unended => ?_⟩
  · have he := (runEnded_iff s).2 ended
    simp [viewCount, viewFiles, viewFlags, viewConditions, he]
  · have he : runEnded s = false := by rcases unended with h | h <;> simp [runEnded, h]
    simp [viewCount, viewFiles, viewFlags, viewConditions, he]

/-- What the canonical form asks of a list with a first cell. -/
theorem sortedFrom_cons {lo a : Nat} {v : Byte} {rest : List Host.Cell} :
    sortedFrom lo ((a, v) :: rest) = true ↔ lo ≤ a ∧ v ≠ 0 ∧ sortedFrom (a + 1) rest = true := by
  simp [sortedFrom, and_assoc]

/-- A byte that is not 0 lies where the list may have cells. -/
theorem le_of_memRead_ne_zero {lo a : Nat} {m : List Host.Cell} (h : sortedFrom lo m = true)
    (ha : memRead m a ≠ 0) : lo ≤ a := by
  by_contra hlt
  exact ha (memRead_below h (Nat.lt_of_not_le hlt))

/-- The first cell can be read. -/
theorem memRead_cons_self (a : Nat) (v : Byte) (rest : List Host.Cell) : memRead ((a, v) :: rest) a = v := by
  simp [memRead]

/-- The cells behind the first one read as the whole list does, but for the first cell's own address, where they
read 0. -/
theorem memRead_tail {a : Nat} {v : Byte} {rest : List Host.Cell} (h : sortedFrom (a + 1) rest = true) (c : Nat) :
    memRead rest c = if a = c then 0 else memRead ((a, v) :: rest) c := by
  split
  · exact memRead_below h (by omega)
  · simp [memRead, *]

/-- Rising lists that read the same are the same: the first cells agree, being the first address of each that does
not read 0, and so do the rests. -/
theorem eq_of_memRead_eq {lo lo' : Nat} {m m' : List Host.Cell} (h : sortedFrom lo m = true)
    (h' : sortedFrom lo' m' = true) (same : ∀ a, memRead m a = memRead m' a) : m = m' := by
  induction m generalizing lo lo' m' with
  | nil =>
    cases m' with
    | nil => rfl
    | cons p' rest' =>
      obtain ⟨a', v'⟩ := p'
      have zero := (same a').trans (memRead_cons_self a' v' rest')
      exact absurd zero.symm (sortedFrom_cons.1 h').2.1
  | cons p rest ih =>
    obtain ⟨a, v⟩ := p
    obtain ⟨-, hv, hr⟩ := sortedFrom_cons.1 h
    have first : memRead m' a = v := (same a).symm.trans (memRead_cons_self a v rest)
    cases m' with
    | nil => exact absurd first.symm hv
    | cons p' rest' =>
      obtain ⟨a', v'⟩ := p'
      obtain ⟨-, hv', hr'⟩ := sortedFrom_cons.1 h'
      have first' : memRead ((a, v) :: rest) a' = v' := (same a').trans (memRead_cons_self a' v' rest')
      have le : a ≤ a' := le_of_memRead_ne_zero (sortedFrom_cons.2 ⟨le_rfl, hv, hr⟩) (first' ▸ hv')
      have le' : a' ≤ a := le_of_memRead_ne_zero (sortedFrom_cons.2 ⟨le_rfl, hv', hr'⟩) (first ▸ hv)
      obtain rfl : a = a' := le_antisymm le le'
      obtain rfl : v' = v := (memRead_cons_self a v' rest').symm.trans first
      rw [ih hr hr' (fun c => by rw [memRead_tail (v := v') hr, memRead_tail (v := v') hr', same])]

/-- Settles O14: the canonical form is the rising form from address 0 on. -/
theorem canonicalMemoryIsUnique : Obligations.CanonicalMemoryIsUnique := fun _ _ => eq_of_memRead_eq

end Sys2Proof.Machine
end

section
/-! The invariant of the state: each update of the state keeps it, so every step does (10_state.md R14, R15, R18 to
R20, R24; 60_exceptions.md R101), and no step fetches a word that does not exist (R13, R26). -/

namespace Sys2Proof.Machine

open Sys2Proof.Laws

/-- What the invariant says of a run in progress on block `b`. -/
structure Running (b : RawBlock) (s : State) : Prop where
  wp_lt : s.wp < 30788
  maskWritten : s.maskWritten = true
  nch : s.nch.toNat = popcount s.mask
  dSize : s.dSize = false
  dCount : s.dCount = countMismatch s.mask
  raw : s.raw = some b
  wf : b.wf = true
  size : b.size = 123152
  dEcho : s.dEcho = (decide (0 < s.wp) && echoMismatch s.mask (blockWord Config.byteOrder b 0))

/-- A BUSY state that meets the invariant is in a run on some block. -/
theorem StateInv.running {s : State} (inv : StateInv s) (busy : s.run = .busy) : ∃ b, Running b s := by
  have run := inv.run
  simp only [RunInv, busy] at run
  obtain ⟨hwp, hmask, hnch, hsize, hcount, b, hraw, hwf, hbytes, hecho⟩ := run
  exact ⟨b, hwp, hmask, hnch, hsize, hcount, hraw, hwf, hbytes, hecho⟩

/-- A run on some block is all that the invariant asks of `RUN` being BUSY. -/
theorem Running.runInv {s : State} {b : RawBlock} (run : Running b s) (busy : s.run = .busy) : RunInv s := by
  simp only [RunInv, busy]
  exact ⟨run.wp_lt, run.maskWritten, run.nch, run.dSize, run.dCount, b, run.raw, run.wf, run.size, run.dEcho⟩

/-- The invariant does not speak of the host's side. -/
theorem StateInv.hostSide {s : State} (inv : StateInv s) (rs : List Request) (r : Reply) :
    StateInv { s with requests := rs, reply := r } :=
  ⟨inv.run, inv.files, inv.count, inv.sizeRecord, inv.countRecord, inv.echoRecord⟩

/-- Taking moves off the host's list keeps the invariant. -/
theorem StateInv.withRequests {s : State} (inv : StateInv s) (rs : List Request) :
    StateInv (withRequests rs s) := inv.hostSide rs s.reply

/-- Returning a result keeps the invariant. -/
theorem StateInv.answer {s : State} (inv : StateInv s) (r : Reply) : StateInv (answer r s) :=
  inv.hostSide s.requests r

/-- The state after reset meets the invariant. -/
theorem stateInv_reset : StateInv State.reset := by constructor <;> simp [RunInv, State.reset]

/-- Between runs the invariant does not speak of `MASK`. -/
theorem StateInv.writeMask {s : State} (inv : StateInv s) (idle : s.run ≠ .busy) (m : Word) :
    StateInv { s with mask := m, maskWritten := true } := by
  refine ⟨?_, inv.files, inv.count, inv.sizeRecord, inv.countRecord, inv.echoRecord⟩
  have run := inv.run
  cases h : s.run with
  | busy => exact absurd h idle
  | idle | done | rejected => simpa only [RunInv, h] using run

/-- The accepted entry of a run establishes the invariant. -/
theorem stateInv_acceptRun {b : RawBlock} {s : State} (ready : s.maskWritten = true) (wf : b.wf = true)
    (size : b.size = 123152) : StateInv (acceptRun b s) where
  run := Running.runInv (b := b) (by constructor <;> simp [*, -BitVec.toNat_ofNat, toNat_popcount]) (by simp)
  files := by simp [-BitVec.toNat_ofNat, toNat_popcount]
  count := by simp [-BitVec.toNat_ofNat, toNat_popcount, popcount_le]
  sizeRecord := by simp
  countRecord := by cases h : countMismatch s.mask <;> simp [h]
  echoRecord := by simp

/-- The rejected entry of a run establishes the invariant. -/
theorem stateInv_rejectRun (b : RawBlock) (s : State) : StateInv (rejectRun b s) := by
  constructor <;> simp [RunInv]

/-- The register files may change within the invariant as long as their number stays. -/
theorem StateInv.setFiles {s : State} (inv : StateInv s) {crf : List ChipFile} (same : crf.length = s.crf.length) :
    StateInv { s with crf := crf } :=
  ⟨inv.run, same.trans inv.files, inv.count, inv.sizeRecord, inv.countRecord, inv.echoRecord⟩

/-- Past the ECHO word, taking a word keeps the invariant: the run goes on, or ends after the last word. -/
theorem StateInv.advanceWord {s : State} (inv : StateInv s) (busy : s.run = .busy) (past : 0 < s.wp) :
    StateInv (advanceWord s) := by
  obtain ⟨b, run⟩ := inv.running busy
  refine ⟨?_, by simp [inv.files], by simp [inv.count], by simp [inv.sizeRecord], by simp [inv.countRecord],
    by simp [inv.echoRecord]⟩
  by_cases last : s.wp + 1 = 30788
  · rw [advanceWord_last last]
    exact ⟨rfl, last, run.dSize⟩
  · rw [advanceWord_inside last]
    have inside := run.wp_lt
    exact Running.runInv (b := b)
      { run with wp_lt := by simp only; omega, dEcho := by simpa [past] using run.dEcho } busy

/-- The ECHO word of the block borrowed keeps the invariant: `D_ECHO` is then what `MASK` and that word say. -/
theorem StateInv.compareEcho {s : State} (inv : StateInv s) (busy : s.run = .busy) (start : s.wp = 0)
    {b : RawBlock} {x : Word} (raw : s.raw = some b) (word : x = blockWord Config.byteOrder b 0) :
    StateInv { s with
      wp := 1, dEcho := echoMismatch s.mask x || s.dEcho,
      echoRecord := if echoMismatch s.mask x then some x else s.echoRecord } := by
  obtain ⟨b', run⟩ := inv.running busy
  obtain rfl : b = b' := Option.some_inj.1 (raw.symm.trans run.raw)
  have clear : s.dEcho = false := by simpa [start] using run.dEcho
  have unrecorded : s.echoRecord.isSome = false := inv.echoRecord.trans clear
  refine ⟨Running.runInv (b := b) { run with wp_lt := by simp, dEcho := by simp [clear, word] } busy,
    inv.files, inv.count, inv.sizeRecord, inv.countRecord, ?_⟩
  cases h : echoMismatch s.mask x <;> simp [clear, unrecorded]

/-- The raw word that a stream operation carries. -/
def streamWord : Instr → Option Word
  | .echo x | .plane x | .tail x => some x
  | .g2b _ | .remap _ | .adcread _ | .config _ | .decode _ | .read _ _ => none

/-- A completed operation keeps the invariant, when its block is in canonical form and its stream word is the one at
`WP` of the block borrowed. -/
theorem StateInv.completion {i : Instr} {s t : State} (inv : StateInv s) (done : Completion s i t)
    (wf : i.wf = true)
    (word : ∀ x, streamWord i = some x → ∃ b, s.raw = some b ∧ x = blockWord Config.byteOrder b s.wp) :
    StateInv t := by
  cases done with
  | echo x busy start =>
    obtain ⟨b, raw, hx⟩ := word x rfl
    exact inv.compareEcho busy start raw (start ▸ hx)
  | plane x busy first => exact (inv.setFiles (planeLoop_length ..)).advanceWord busy first
  | tail x busy first => exact inv.advanceWord busy (by omega)
  | config m idle => exact (inv.writeMask idle m).answer .nothing
  | accept b _ ready size => exact stateInv_acceptRun ready wf size
  | reject b => exact stateInv_rejectRun b s
  | result i r => exact inv.answer r

/-- What the decoder makes of a raw word presented at an offset: the stream operation of that word. -/
theorem decode_offset {w : Nat} {x : Word} {i : Instr}
    (h : decodeOperation (.offset w) (.bits x.toNat) = .ok i) : ∃ k, i = decodeWord k x := by
  simp only [decodeOperation, bitsOf_toNat] at h
  split at h
  · cases h
  · rename_i k _
    exact ⟨k, by cases h; rfl⟩

/-- A mapped result is the image of a result. -/
theorem exists_of_map_eq_ok {α : Type} {f : α → Instr} {e : Except DecodeError α} {i : Instr}
    (h : e.map f = .ok i) : ∃ a, i = f a := by
  cases e with
  | error => cases h
  | ok a => exact ⟨a, by cases h; rfl⟩

/-- The decoder takes a block in canonical form alone. -/
theorem decodeBlock_ok {o : Operand} {i : Instr} (h : decodeBlock o = .ok i) :
    ∃ raw, i = .decode raw ∧ raw.wf = true := by
  cases o with
  | bits | index => cases h
  | block raw =>
    rw [decodeBlock] at h
    split at h <;> cases h
    exact ⟨raw, rfl, ‹_›⟩

/-- What the decoder makes of an operand a caller presents: a well-formed operation that is no stream word. -/
theorem decode_caller {op : CallerOp} {o : Operand} {i : Instr} (h : decodeOperation (.caller op) o = .ok i) :
    i.wf = true ∧ streamWord i = none := by
  cases op with
  | g2b | remap | adcread | config =>
    obtain ⟨operand, rfl⟩ := exists_of_map_eq_ok h
    exact ⟨rfl, rfl⟩
  | decode =>
    obtain ⟨raw, rfl, wf⟩ := decodeBlock_ok h
    exact ⟨wf, rfl⟩
  | read =>
    cases o with
    | bits | block => cases h
    | index k j => cases h; exact ⟨rfl, rfl⟩

/-- The operation a step takes is well-formed, and a stream word is the one at `WP` of the block borrowed. -/
theorem fetched_operation {s : State} {sel : Select} {o : Operand} {i : Instr}
    (fetched : (fetch s).1 = .operation sel o) (decoded : decodeOperation sel o = .ok i) :
    i.wf = true ∧ ∀ x, streamWord i = some x → ∃ b, s.raw = some b ∧ x = blockWord Config.byteOrder b s.wp := by
  rcases fetch_cases s with ⟨r, rest, -, -, hf⟩ | hf <;> rw [hf] at fetched
  · obtain ⟨-, hm⟩ | ⟨op, o', -, hm⟩ := moveFetched_cases r.move
    · cases hm.symm.trans fetched
    · cases hm.symm.trans fetched
      obtain ⟨wf, noWord⟩ := decode_caller decoded
      exact ⟨wf, by simp [noWord]⟩
  · obtain ⟨-, rfl, b, x, raw, hx, rfl⟩ := fetchOwn_operation fetched
    obtain ⟨k, rfl⟩ := decode_offset decoded
    have word : x = blockWord Config.byteOrder b s.wp := by
      rw [rawWord] at hx
      split at hx <;> cases hx
      rfl
    cases k <;> exact ⟨rfl, fun y hy => ⟨b, raw, by cases hy; exact word⟩⟩

/-- Settles O46, by what the step takes: nothing, a reset, or an operation. -/
theorem stepKeepsStateInvariant : Obligations.StepKeepsStateInvariant := by
  intro s t inv h
  have inv' := inv.withRequests (fetch s).2
  rcases step_cases h with ⟨-, rfl⟩ | ⟨-, rfl⟩ | ⟨sel, o, i, fetched, decoded, done⟩
  · exact inv'
  · exact stateInv_reset.withRequests _
  · obtain ⟨wf, word⟩ := fetched_operation fetched decoded
    exact inv'.completion (completion_of_exec done) wf word

/-- Settles O45: the reset state by its fields; it is not BUSY, so it has no run to be assembled. -/
theorem resetMeetsInvariants : Obligations.ResetMeetsInvariants :=
  ⟨stateInv_reset, nofun, rfl, rfl, rfl, rfl, rfl, rfl, rfl, rfl⟩

/-- No operation faults: what it cannot do it refuses. -/
theorem exec_ne_fault (i : Instr) (s : State) (f : Fault) : exec i s ≠ .fault f := by
  intro h
  cases i with
  | g2b | remap | adcread => cases h
  | echo x => rw [exec, execEcho] at h; split at h <;> cases h
  | plane x => rw [exec, execPlane] at h; split at h <;> cases h
  | tail x => rw [exec, execTail] at h; split at h <;> cases h
  | config m => rw [exec, execConfig] at h; split at h <;> cases h
  | decode b => rw [exec, execDecode] at h; (repeat' split at h) <;> cases h
  | read k i => rw [exec, execRead] at h; (repeat' split at h) <;> cases h

/-- What is carried out faults only where the fetch did. -/
theorem eq_fault_of_carryOut {fetched : Fetched} {s : State} {f : Fault} (h : carryOut fetched s = .fault f) :
    fetched = .fault f := by
  cases fetched with
  | idle | reset => cases h
  | fault why => cases h; rfl
  | operation sel o =>
    rw [carryOut, runOperation] at h
    split at h
    · exact absurd h (exec_ne_fault _ _ _)
    · cases h

/-- Under the invariant the word at `WP` of a run exists. -/
theorem StateInv.fetchOwn_ne_fault {s : State} (inv : StateInv s) (f : Fault) : fetchOwn s ≠ .fault f := by
  by_cases busy : s.run = .busy
  · obtain ⟨b, run⟩ := inv.running busy
    have exists_ : 4 * s.wp + 3 < b.size := by have := run.wp_lt; have := run.size; omega
    rw [fetchOwn_busy busy run.raw exists_]
    nofun
  · rw [fetchOwn, if_neg busy]
    nofun

/-- Settles O49: what is fetched is a word that exists or a move of the host, and no operation faults. -/
theorem noStepFaults : Obligations.NoStepFaults := by
  intro s f inv h
  have faulted := eq_fault_of_carryOut h
  rcases fetch_cases s with ⟨r, rest, -, -, hf⟩ | hf <;> rw [hf] at faulted
  · rcases moveFetched_cases r.move with ⟨-, hm⟩ | ⟨op, o, -, hm⟩ <;> cases hm.symm.trans faulted
  · exact inv.fetchOwn_ne_fault f faulted

end Sys2Proof.Machine
end

section
/-! Register and row of a PLANE word against its offset (20_memory.md R29), and the output of a run as it is being
assembled, which every step keeps (R35; 40_deinterleaver.md R58; 70_reset_and_hazards.md R119). -/

namespace Sys2Proof.Machine

open Sys2Proof.Laws

/-- R29: the PLANE words are those at 1..30784. -/
theorem planeOffset_mem_range {i j : Nat} (hi : i < 1924) (hj : j < 16) :
    1 ≤ planeOffset i j ∧ planeOffset i j ≤ 30784 := by
  unfold planeOffset; omega

/-- R29: a register and a row have the offset `w` exactly when they are the register and the row of `w`. -/
theorem planeOffset_eq_iff {i j w : Nat} (hj : j < 16) (hw : 1 ≤ w) :
    planeOffset i j = w ↔ i = planeRegister w ∧ j = planeRow w := by
  unfold planeOffset planeRegister planeRow; omega

/-- R29: the register of a PLANE word exists. -/
theorem planeRegister_lt {w : Nat} (hw : w ≤ 30784) : planeRegister w < 1924 := by
  unfold planeRegister; omega

/-- A register has 16 rows. -/
theorem planeRow_lt (w : Nat) : planeRow w < 16 := Nat.mod_lt _ (by decide)

/-- Settles O11: both directions are the equivalence `planeOffset_eq_iff`, inside its bounds. -/
theorem planeOffsetsInvert : Obligations.PlaneOffsetsInvert := by
  refine ⟨fun i j hi hj => ?_, fun w first last => ?_⟩
  · obtain ⟨first, last⟩ := planeOffset_mem_range hi hj
    obtain ⟨register, row⟩ := (planeOffset_eq_iff hj first).1 rfl
    exact ⟨register.symm, row.symm, first, last, rfl⟩
  · exact ⟨planeRegister_lt last, planeRow_lt w, (planeOffset_eq_iff (planeRow_lt w) first).2 ⟨rfl, rfl⟩⟩

/-- The register files `crf` under mask `m` hold what the words of block `b` before offset `w` say, and 0 elsewhere:
`Assembled` in terms of the parts of the state it speaks of. -/
def FilesAssembled (b : RawBlock) (m : Word) (w : Nat) (crf : List ChipFile) : Prop :=
  ∀ k f, lane m k = some f → ∀ i, i < 1924 → ∀ n, n < 16 →
    (slot crf k i).map (fun v => v.getLsbD n) =
      some (decide (planeOffset i (15 - n) < w) &&
        (blockWord Config.byteOrder b (planeOffset i (15 - n))).getLsbD f)

/-- `Assembled` is about the files of a run in progress. -/
theorem assembled_iff {s : State} :
    Assembled s ↔ (s.run = .busy → ∀ b, s.raw = some b → FilesAssembled b s.mask s.wp s.crf) := Iff.rfl

/-- When no run is in progress there is nothing to assemble. -/
theorem assembled_of_not_busy {s : State} (idle : s.run ≠ .busy) : Assembled s := fun busy => absurd busy idle

/-- Zeroed files are assembled before the first word (40_deinterleaver.md R56). -/
theorem filesAssembled_zero (b : RawBlock) (m : Word) :
    FilesAssembled b m 0 (List.replicate (popcount m) zeroFile) := by
  intro k f hf i hi n _
  have hk : k < popcount m := by simpa [hf] using lane_isSome m k
  rw [slot_eq_some (by simpa using hk) hi]
  simp [zeroFile]

/-- A word that is not a PLANE word leaves the files assembled: it carries no bit of any slot (R119). -/
theorem FilesAssembled.skip {b : RawBlock} {m : Word} {w : Nat} {crf : List ChipFile}
    (asm : FilesAssembled b m w crf) (outside : w = 0 ∨ 30785 ≤ w) : FilesAssembled b m (w + 1) crf := by
  intro k f hf i hi n hn
  obtain ⟨first, last⟩ := planeOffset_mem_range (j := 15 - n) hi (by omega)
  have consumed : planeOffset i (15 - n) < w + 1 ↔ planeOffset i (15 - n) < w := by omega
  rw [asm k f hf i hi n hn, decide_eq_decide.2 consumed]

/-- A PLANE step adds the bits that its word carries to the assembled files (40_deinterleaver.md R58). -/
theorem FilesAssembled.plane {b : RawBlock} {m : Word} {w : Nat} {crf : List ChipFile}
    (asm : FilesAssembled b m w crf) (files : crf.length = popcount m) (first : 1 ≤ w) :
    FilesAssembled b m (w + 1) (planeLoop m (blockWord Config.byteOrder b w) (planeRegister w) (planeRow w)
      (List.range 32) 0 crf) := by
  intro k f hf i hi n hn
  have hk : k < crf.length := by simpa [hf, files] using lane_isSome m k
  have hbit := asm k f hf i hi n hn
  have carries : (i = planeRegister w ∧ n = 15 - planeRow w) ↔ planeOffset i (15 - n) = w := by
    have := planeRow_lt w
    rw [planeOffset_eq_iff (by omega) first]
    omega
  rw [slot_eq_some hk hi, Option.map_some, Option.some_inj] at hbit
  rw [plane_slot_bit _ _ _ _ _ hf hk hi hn, slot_eq_some hk hi, Option.map_some, hbit]
  simp only [carries]
  rcases Nat.lt_trichotomy (planeOffset i (15 - n)) w with before | now | after
  · simp [before, before.ne, Nat.lt_succ_of_lt before]
  · simp [now]
  · simp [after.ne', after.not_gt, (Nat.succ_le_of_lt after).not_gt]

/-- Taking the word at `WP` leaves the run over, or in progress with the files assembled up to the next word. -/
theorem assembled_advanceWord {s : State}
    (next : ∀ b, s.raw = some b → FilesAssembled b s.mask (s.wp + 1) s.crf) : Assembled (advanceWord s) := by
  by_cases last : s.wp + 1 = 30788
  · exact assembled_of_not_busy (by simp [advanceWord_last last])
  · rw [advanceWord_inside last]
    exact fun _ => next

/-- In a run there is one register file for each lane of the mask (10_state.md R15). -/
theorem StateInv.length_files {s : State} (inv : StateInv s) (busy : s.run = .busy) :
    s.crf.length = popcount s.mask := by
  obtain ⟨b, run⟩ := inv.running busy
  exact inv.files.trans run.nch

/-- A completed operation keeps the output assembled, when its stream word is the one at `WP` of the block borrowed. -/
theorem Assembled.completion {i : Instr} {s t : State} (asm : Assembled s) (inv : StateInv s)
    (done : Completion s i t)
    (word : ∀ x, streamWord i = some x → ∃ b, s.raw = some b ∧ x = blockWord Config.byteOrder b s.wp) :
    Assembled t := by
  have files := assembled_iff.1 asm
  cases done with
  | echo x busy start =>
    refine assembled_iff.2 fun _ b raw => ?_
    simpa [start] using (files busy b raw).skip (.inl start)
  | plane x busy first last =>
    refine assembled_advanceWord fun b raw => ?_
    obtain ⟨b', raw', rfl⟩ := word x rfl
    obtain rfl : b = b' := Option.some_inj.1 (raw.symm.trans raw')
    exact (files busy b raw).plane (inv.length_files busy) first
  | tail x busy first last => exact assembled_advanceWord fun b raw => (files busy b raw).skip (.inr first)
  | config m idle => exact assembled_of_not_busy idle
  | accept b idle ready size =>
    refine assembled_iff.2 fun _ b' _ => ?_
    simpa using filesAssembled_zero b' s.mask
  | reject b => exact assembled_of_not_busy (by simp)
  | result i r => exact asm

/-- Settles O47, by what the step takes: nothing, a reset, or an operation. -/
theorem stepKeepsAssembly : Obligations.StepKeepsAssembly := by
  intro s t inv asm h
  rcases step_cases h with ⟨-, rfl⟩ | ⟨-, rfl⟩ | ⟨sel, o, i, fetched, decoded, done⟩
  · exact asm
  · exact assembled_of_not_busy (by simp [State.reset])
  · obtain ⟨-, word⟩ := fetched_operation fetched decoded
    have asm' : Assembled (withRequests (fetch s).2 s) := asm
    exact asm'.completion (inv.withRequests _) (completion_of_exec done) word

end Sys2Proof.Machine
end

section
/-! Several boards, and the collector of their outputs (20_memory.md R37; 60_exceptions.md R112;
70_reset_and_hazards.md R126). -/

namespace Sys2Proof.Machine

/-- What a step of board `n` has done when it answers: nothing where there is no such board, else one step of its own
state, put in its own place. -/
theorem stepInstance_next {n : Nat} {boards boards' : Boards} : stepInstance n boards = .next boards' ↔
    (boards[n]? = none ∧ boards' = boards) ∨
      ∃ s t, boards[n]? = some s ∧ step s = .next t ∧ boards' = boards.set n t := by
  unfold stepInstance
  cases boards[n]? with
  | none => simp [eq_comm]
  | some s => cases hs : step s <;> simp [hs, eq_comm]

/-- A step of one board leaves the number of boards and every other board as they are (R112). -/
theorem stepInstance_frame {n : Nat} {boards boards' : Boards} (h : stepInstance n boards = .next boards') :
    boards'.length = boards.length ∧ ∀ m, m ≠ n → boards'[m]? = boards[m]? := by
  rcases stepInstance_next.1 h with ⟨-, rfl⟩ | ⟨s, t, -, -, rfl⟩
  · exact ⟨rfl, fun _ _ => rfl⟩
  · exact ⟨List.length_set, fun m hm => List.getElem?_set_ne hm.symm⟩

/-- What a step leaves of a board does not depend on the others (R37). -/
theorem stepInstance_independent {n : Nat} {boards boards' after : Boards} (same : boards[n]? = boards'[n]?)
    (h : stepInstance n boards = .next after) :
    ∃ after', stepInstance n boards' = .next after' ∧ after'[n]? = after[n]? := by
  rcases stepInstance_next.1 h with ⟨none, rfl⟩ | ⟨s, t, found, stepped, rfl⟩
  · exact ⟨boards', stepInstance_next.2 (.inl ⟨same ▸ none, rfl⟩), same.symm⟩
  · have found' := same.symm.trans found
    refine ⟨boards'.set n t, stepInstance_next.2 (.inr ⟨s, t, found', stepped, rfl⟩), ?_⟩
    rw [List.getElem?_set_self', List.getElem?_set_self', same]

/-- Settles O56: the frame of a board's step, and its independence of the others. -/
theorem instancesShareNothing : Obligations.InstancesShareNothing :=
  ⟨fun _ _ _ => stepInstance_frame, fun _ _ _ _ => stepInstance_independent⟩

/-- The order of arrival of the raw blocks (R37). -/
abbrev ArrivesNoLater : Emission → Emission → Prop := Order.Preimage Emission.arrival (· ≤ ·)

/-- The collector's insertion is the library's, in the order of arrival. -/
theorem insertByArrival_eq_orderedInsert (e : Emission) (es : List Emission) :
    insertByArrival e es = es.orderedInsert ArrivesNoLater e := by
  induction es with
  | nil => rfl
  | cons d rest ih => simp only [insertByArrival, List.orderedInsert_cons, ih, Order.Preimage]

/-- The collector is an insertion sort in the order of arrival. -/
theorem collect_eq_insertionSort (es : List Emission) : collect es = es.insertionSort ArrivesNoLater := by
  induction es with
  | nil => rfl
  | cons e rest ih => rw [collect, ih, insertByArrival_eq_orderedInsert, List.insertionSort_cons]

/-- The collector gives every output once. -/
theorem collect_perm (es : List Emission) : (collect es).Perm es :=
  collect_eq_insertionSort es ▸ List.perm_insertionSort ArrivesNoLater es

/-- The collector gives the outputs in the order of arrival. -/
theorem collect_pairwise (es : List Emission) : (collect es).Pairwise ArrivesNoLater :=
  collect_eq_insertionSort es ▸ List.pairwise_insertionSort ArrivesNoLater es

/-- Where arrival numbers are distinct, what the collector gives does not depend on the order of completion (R126):
there is one list of these outputs in the order of arrival. -/
theorem collect_eq_of_perm {es es' : List Emission} (perm : es.Perm es')
    (distinct : (es.map Emission.arrival).Nodup) : collect es = collect es' := by
  have collected : (collect es).Perm (collect es') := (collect_perm es).trans (perm.trans (collect_perm es').symm)
  refine collected.eq_of_pairwise (fun d e hd he le ge => ?_) (collect_pairwise es) (collect_pairwise es')
  have hd' : d ∈ es := (collect_perm es).mem_iff.1 hd
  have he' : e ∈ es := perm.mem_iff.2 ((collect_perm es').mem_iff.1 he)
  exact List.inj_on_of_nodup_map distinct hd' he' (le_antisymm le ge)

/-- Settles O57: the planes are a function of the outputs as the collector gives them. -/
theorem outputsInArrivalOrder : Obligations.OutputsInArrivalOrder := by
  refine ⟨fun es => ⟨collect_perm es, collect_pairwise es⟩, fun edge ident trigger es es' perm distinct => ?_⟩
  rw [emitPlanes, emitPlanes, chipsOfEvent, chipsOfEvent, collect_eq_of_perm perm distinct]

end Sys2Proof.Machine
end

section
/-! The decoder: the kind of a stream word by its offset (30_encoding.md R40, R41), what the decoder answers and
refuses for each way to select an operation, and that it and the encoder are inverse (R42 to R50, R55; log 5, 22). -/

namespace Sys2Proof.Machine

open Sys2Proof.Laws

/-- R41: the first word is the ECHO word. -/
theorem wordKind_eq_echo_iff {w : Nat} : wordKind w = some .echo ↔ w = 0 := by
  unfold wordKind Config.nDataWords Config.nWords
  (repeat' split) <;> simp only [Option.some.injEq, reduceCtorEq, true_iff, false_iff] <;> omega

/-- R41: the PLANE words are at 1..30784. -/
theorem wordKind_eq_plane_iff {w : Nat} : wordKind w = some .plane ↔ 1 ≤ w ∧ w ≤ 30784 := by
  unfold wordKind Config.nDataWords Config.nWords
  (repeat' split) <;> simp only [Option.some.injEq, reduceCtorEq, true_iff, false_iff] <;> omega

/-- R41: the TAIL words are at 30785..30787. -/
theorem wordKind_eq_tail_iff {w : Nat} : wordKind w = some .tail ↔ 30785 ≤ w ∧ w ≤ 30787 := by
  unfold wordKind Config.nDataWords Config.nWords
  (repeat' split) <;> simp only [Option.some.injEq, reduceCtorEq, true_iff, false_iff] <;> omega

/-- R41: the block has no word from 30788 on. -/
theorem wordKind_eq_none_iff {w : Nat} : wordKind w = none ↔ 30788 ≤ w := by
  unfold wordKind Config.nDataWords Config.nWords
  (repeat' split) <;> simp only [reduceCtorEq, true_iff, false_iff] <;> omega

/-- What selects a stream word is an offset of its kind. -/
theorem selects_decodeWord_iff {sel : Select} {k : WordKind} {x : Word} :
    selects sel (decodeWord k x) = true ↔ ∃ w, sel = .offset w ∧ wordKind w = some k := by
  cases sel with
  | caller op => cases k <;> simp [selects, decodeWord]
  | offset w =>
    cases k with
    | echo => simp [selects, decodeWord, wordKind_eq_echo_iff]
    | plane => simp [selects, decodeWord, wordKind_eq_plane_iff]
    | tail => simp [selects, decodeWord, wordKind_eq_tail_iff]

/-- A stream word of any kind is presented as its 32 bits. -/
@[simp] theorem encode_decodeWord (k : WordKind) (x : Word) : encode (decodeWord k x) = .bits x.toNat := by
  cases k <;> rfl

/-- A stream word has no form to check (R50). -/
@[simp] theorem wf_decodeWord (k : WordKind) (x : Word) : (decodeWord k x).wf = true := by
  cases k <;> rfl

/-- R41: at an offset of kind `k` every 32-bit value is decoded to the stream word of that kind. -/
theorem decodeOperation_word {w : Nat} {k : WordKind} (kind : wordKind w = some k) (x : Word) :
    decodeOperation (.offset w) (.bits x.toNat) = .ok (decodeWord k x) := by
  simp [decodeOperation, kind, bitsOf_toNat, Except.map]

/-- Log 22: at an offset the block does not have nothing is decoded. -/
theorem decodeOperation_outside {w : Nat} (outside : 30788 ≤ w) (o : Operand) :
    decodeOperation (.offset w) o = .error .offsetOutsideBlock := by
  simp [decodeOperation, wordKind_eq_none_iff.2 outside]

/-- Log 22: what is decoded from a bit pattern was presented as the number of the bit vector it holds. -/
theorem bits_of_map_bitsOf {n : Nat} {o : Operand} {f : BitVec n → Instr} {i : Instr}
    (h : (bitsOf n o).map f = .ok i) : ∃ x, o = .bits x.toNat ∧ i = f x := by
  cases o with
  | block | index => cases h
  | bits v =>
    rw [bitsOf] at h
    split at h
    · exact ⟨BitVec.ofNat n v, by simp [Nat.mod_eq_of_lt, *], by cases h; rfl⟩
    · cases h

/-- What is decoded at an offset is the stream word of the offset's kind. -/
theorem word_of_decodeOperation {w : Nat} {o : Operand} {i : Instr} (h : decodeOperation (.offset w) o = .ok i) :
    ∃ k x, wordKind w = some k ∧ o = .bits x.toNat ∧ i = decodeWord k x := by
  rw [decodeOperation] at h
  split at h
  · cases h
  · obtain ⟨x, ho, hi⟩ := bits_of_map_bitsOf h
    exact ⟨_, x, ‹_›, ho, hi⟩

/-- Log 5: a block is decoded exactly when it is presented in its canonical form. -/
theorem decodeBlock_eq_ok_iff {o : Operand} {i : Instr} :
    decodeBlock o = .ok i ↔ ∃ raw, o = .block raw ∧ raw.wf = true ∧ i = .decode raw := by
  cases o with
  | bits | index => simp [decodeBlock]
  | block raw => cases wf : raw.wf <;> simp [decodeBlock, wf, eq_comm (b := i)]

/-- Settles O10: the kind at each offset, and none past the block. -/
theorem offsetDecidesWordKind : Obligations.OffsetDecidesWordKind :=
  ⟨decodeOperation_word (wordKind_eq_echo_iff.2 rfl),
    fun _ x first last => decodeOperation_word (wordKind_eq_plane_iff.2 ⟨first, last⟩) x,
    fun _ x first last => decodeOperation_word (wordKind_eq_tail_iff.2 ⟨first, last⟩) x,
    fun _ o outside => decodeOperation_outside outside o⟩

/-- A stream word, at every offset that selects it, is decoded to itself. -/
theorem decodeOperation_selected_word {sel : Select} {k : WordKind} {x : Word}
    (selected : selects sel (decodeWord k x) = true) :
    decodeOperation sel (encode (decodeWord k x)) = .ok (decodeWord k x) := by
  obtain ⟨w, rfl, kind⟩ := selects_decodeWord_iff.1 selected
  rw [encode_decodeWord, decodeOperation_word kind]

/-- Settles O15, operation by operation: a stream word by the kind of its offset, an operation with a bit pattern by
the number of its bits, DECODE by the form of its block. -/
theorem decodeInvertsEncode : Obligations.DecodeInvertsEncode := by
  intro i sel wf selected
  cases i with
  | echo x => exact decodeOperation_selected_word (k := .echo) selected
  | plane x => exact decodeOperation_selected_word (k := .plane) selected
  | tail x => exact decodeOperation_selected_word (k := .tail) selected
  | g2b x | remap x | adcread x | config x =>
    obtain rfl := of_decide_eq_true selected
    exact congrArg (Except.map _) (bitsOf_toNat x)
  | decode raw =>
    obtain rfl := of_decide_eq_true selected
    exact decodeBlock_eq_ok_iff.2 ⟨raw, rfl, wf, rfl⟩
  | read k j =>
    obtain rfl := of_decide_eq_true selected
    rfl

/-- Settles O16, by what selected the operation: the decoder has then read the operand in one way. -/
theorem decodeAcceptsOnlyEncodings : Obligations.DecodeAcceptsOnlyEncodings := by
  intro sel o i h
  cases sel with
  | offset w =>
    obtain ⟨k, x, kind, rfl, rfl⟩ := word_of_decodeOperation h
    exact ⟨wf_decodeWord k x, selects_decodeWord_iff.2 ⟨w, rfl, kind⟩, encode_decodeWord k x⟩
  | caller op =>
    cases op with
    | g2b | remap | adcread | config =>
      obtain ⟨x, rfl, rfl⟩ := bits_of_map_bitsOf h
      exact ⟨rfl, rfl, rfl⟩
    | decode =>
      obtain ⟨raw, rfl, wf, rfl⟩ := decodeBlock_eq_ok_iff.1 h
      exact ⟨wf, rfl, rfl⟩
    | read =>
      cases o with
      | bits | block => cases h
      | index k j => cases h; exact ⟨rfl, rfl, rfl⟩

/-- Settles O17: the decoder evaluated on each operand written out. -/
theorem writtenOutOperandsDecode : Obligations.WrittenOutOperandsDecode := by
  unfold Obligations.WrittenOutOperandsDecode
  decide

end Sys2Proof.Machine
end

section
/-! Lanes and ranks of a mask are inverse to each other (30_encoding.md R47). -/

namespace Sys2Proof.Machine

open Sys2Proof.Laws

/-- The set bits of a mask are those below bit `f` and after them those from `f` on. -/
theorem lanes_split (m : Word) {f : Nat} (hf : f ≤ 32) :
    lanes m = (List.range f).filter (fun n => m.getLsbD n) ++
      ((List.range (32 - f)).map (f + ·)).filter (fun n => m.getLsbD n) := by
  rw [lanes, ← List.filter_append, ← List.range_add, Nat.add_sub_of_le hf]

/-- The bits of `(1 << f) - 1` are those below bit `f`. -/
theorem getLsbD_lowMask (f : Nat) {n : Nat} (hn : n < 32) :
    (BitVec.ofNat 32 (1 <<< f - 1)).getLsbD n = decide (n < f) := by
  rw [BitVec.getLsbD_ofNat, Nat.one_shiftLeft, Nat.testBit_two_pow_sub_one]
  simp [hn]

/-- R47: rank counts the set bits below. -/
theorem rank_eq_length (m : Word) {f : Nat} (hf : f ≤ 32) :
    rank m f = ((List.range f).filter (fun n => m.getLsbD n)).length := by
  have below : (List.range f).filter (fun n => (m &&& BitVec.ofNat 32 (1 <<< f - 1)).getLsbD n) =
      (List.range f).filter (fun n => m.getLsbD n) := by
    refine List.filter_congr fun n hn => ?_
    have lt := List.mem_range.1 hn
    rw [BitVec.getLsbD_and, getLsbD_lowMask f (lt.trans_le hf), decide_eq_true lt, Bool.and_true]
  have above : ((List.range (32 - f)).map (f + ·)).filter
      (fun n => (m &&& BitVec.ofNat 32 (1 <<< f - 1)).getLsbD n) = [] := by
    refine List.filter_eq_nil_iff.2 fun n hn => ?_
    obtain ⟨d, hd, rfl⟩ := List.mem_map.1 hn
    have lt := List.mem_range.1 hd
    rw [BitVec.getLsbD_and, getLsbD_lowMask f (by omega)]
    simp
  rw [rank, popcount, lanes_split _ hf, below, above, List.append_nil]

/-- R47: the chip of a set bit's rank has that bit as its lane: the set bits below it come first. -/
theorem lane_rank {m : Word} {f : Nat} (hf : f < 32) (isSet : m.getLsbD f = true) : lane m (rank m f) = some f := by
  obtain ⟨d, hd⟩ : ∃ d, 32 - f = d + 1 := ⟨31 - f, by omega⟩
  rw [lane, lanes_split m hf.le, rank_eq_length m hf.le, List.getElem?_append_right le_rfl, Nat.sub_self, hd,
    List.range_succ_eq_map]
  simp [isSet]

/-- R47: the set bits are listed lowest first. -/
theorem lanes_pairwise (m : Word) : (lanes m).Pairwise (· < ·) := List.pairwise_lt_range.filter _

/-- R47: the rank of a chip's lane is the chip's index. -/
theorem rank_eq_of_lane {m : Word} {k f : Nat} (h : lane m k = some f) : rank m f = k := by
  obtain ⟨hf, isSet⟩ := lane_mem h
  have hk : k < (lanes m).length := (List.getElem?_eq_some_iff.1 h).1
  exact ((List.getElem?_inj hk (lanes_pairwise m).nodup).1 (h.trans (lane_rank hf isSet).symm)).symm

/-- R47: lanes rise with the chip index. -/
theorem lane_lt_lane {m : Word} {k k' f f' : Nat} (h : lane m k = some f) (h' : lane m k' = some f')
    (lt : k < k') : f < f' := by
  obtain ⟨hk, rfl⟩ := List.getElem?_eq_some_iff.1 h
  obtain ⟨hk', rfl⟩ := List.getElem?_eq_some_iff.1 h'
  exact List.pairwise_iff_getElem.1 (lanes_pairwise m) k k' hk hk' lt

/-- Settles O9: a chip's lane by its existence, and the rest by the count of the set bits below. -/
theorem laneAndRankAreInverse : Obligations.LaneAndRankAreInverse := by
  refine fun m => ⟨fun k hk => ?_, fun k hk => List.getElem?_eq_none hk, fun f => lane_rank,
    fun k k' f f' => lane_lt_lane, fun f => rank_eq_length m⟩
  obtain ⟨f, h⟩ := Option.isSome_iff_exists.1 ((lane_isSome m k).trans (decide_eq_true hk))
  obtain ⟨hf, isSet⟩ := lane_mem h
  exact ⟨f, h, hf, isSet, rank_eq_of_lane h⟩

end Sys2Proof.Machine
end

section
/-! Decoding INTERLEAVE gives the register files back (30_encoding.md R54; 40_deinterleaver.md R61). -/

namespace Sys2Proof.Machine

open Sys2Proof.Laws

/-- The bits of a word made of bits. -/
theorem getLsbD_wordOfBits (bit : Nat → Bool) (n : Nat) {f : Nat} (hf : f < 32) :
    (wordOfBits bit n).getLsbD f = (decide (f < n) && bit f) := by
  induction n with
  | zero => simp [wordOfBits]
  | succ n ih =>
    rw [wordOfBits, BitVec.getLsbD_or, ih, getLsbD_placed _ _ _ hf]
    rcases Nat.lt_trichotomy f n with below | rfl | above
    · simp [below, below.ne, Nat.lt_succ_of_lt below]
    · simp
    · simp [above.not_gt, above.ne', (Nat.succ_le_of_lt above).not_gt]

/-- R54: the words of the block that INTERLEAVE gives. -/
theorem blockWord_interleave (crf : List ChipFile) (m fill : Word) {w : Nat} (hw : w < 30788) :
    blockWord Config.byteOrder (interleave crf m fill) w = interleaveWord crf m fill w := by
  rw [interleave, blockWord_blockOfWords, List.getElem?_map, List.getElem?_range hw, Option.map_some, Option.getD_some]

/-- R54: the block that INTERLEAVE gives has the one legal length. -/
theorem size_interleave (crf : List ChipFile) (m fill : Word) : (interleave crf m fill).size = 123152 := by
  simp only [interleave, blockOfWords, List.length_map, List.length_range, Config.nWords]

/-- R54: the word of register `i`, row `j` carries bit `15 - j` of that register of each chip on the chip's lane. -/
theorem getLsbD_interleaveWord {crf : List ChipFile} {m fill : Word} {k f i j : Nat} (hf : lane m k = some f)
    (hk : k < crf.length) (hi : i < 1924) (hj : j < 16) :
    (interleaveWord crf m fill (planeOffset i j)).getLsbD f = ((crf[k])[i]).getLsbD (15 - j) := by
  obtain ⟨first, last⟩ := planeOffset_mem_range hi hj
  obtain ⟨register, row⟩ := (planeOffset_eq_iff hj first).1 rfl
  obtain ⟨hf32, isSet⟩ := lane_mem hf
  rw [interleaveWord, if_neg (by omega), if_pos last, getLsbD_wordOfBits _ _ hf32]
  simp [interleaveBit, isSet, hf32, rank_eq_of_lane hf, ← register, ← row, hk, hi]

/-- R54, R61: the chip on lane `f` is assembled from INTERLEAVE's block as it was laid out. -/
theorem chipFileOf_interleave {crf : List ChipFile} {m fill : Word} {k f : Nat} (hf : lane m k = some f)
    (hk : k < crf.length) :
    chipFileOf (blockWord Config.byteOrder (interleave crf m fill)) f = crf[k] := by
  ext i hi n hn
  have word : planeOffset i (15 - n) < 30788 := by
    have := (planeOffset_mem_range (j := 15 - n) hi (by omega)).2
    omega
  have row : 15 - (15 - n) = n := by omega
  rw [chipFileOf, Vector.getElem_ofFn, ← BitVec.getLsbD_eq_getElem, chipValue_getLsbD _ _ _ _ hn,
    blockWord_interleave _ _ _ word, getLsbD_interleaveWord hf hk hi (by omega), row, BitVec.getLsbD_eq_getElem]

/-- R54, R61: file by file, the files decoded from INTERLEAVE's block are those laid out. -/
theorem decodeFiles_interleave {crf : List ChipFile} {m : Word} (fill : Word) (files : crf.length = popcount m) :
    decodeFiles (blockWord Config.byteOrder (interleave crf m fill)) m = crf := by
  refine List.ext_getElem ((List.length_map _).trans files.symm) fun k hk hk' => ?_
  have hf : lane m k = some ((lanes m)[k]'(hk'.trans_eq files)) := List.getElem?_eq_getElem _
  exact (List.getElem_map _).trans (chipFileOf_interleave hf hk')

/-- Settles O53: the size, the form and the files of INTERLEAVE's block, and its first word, which is the mask. -/
theorem interleaveRoundTrip : Obligations.InterleaveRoundTrip := by
  intro crf m fill files
  have size := size_interleave crf m fill
  have noMismatch : sizeMismatch (interleave crf m fill) = false := by simp [sizeMismatch, size]
  have echo : blockWord Config.byteOrder (interleave crf m fill) 0 = m := blockWord_interleave crf m fill (by omega)
  refine ⟨size, blockOfWords_wf _, ?_⟩
  simp [decodeFunction, noMismatch, echo, decodeFiles_interleave fill files, echoMismatch]

end Sys2Proof.Machine
end

section
/-! What each stream word does to the state where it completes (40_deinterleaver.md R57 to R60, R62, R63;
20_memory.md R35). -/

namespace Sys2Proof.Machine

open Sys2Proof.Laws

/-- Settles O25: a word that is `MASK` raises nothing, any other raises `X_ECHO`. -/
theorem echoComparesWithMask : Obligations.EchoComparesWithMask := by
  intro x s busy start
  refine execEcho_next.2 ⟨⟨busy, start⟩, ?_⟩
  by_cases hx : x = s.mask
  · have same : ¬echoMismatch s.mask x = true := by simp [echoMismatch, hx]
    rw [if_neg same, if_pos hx, if_pos hx, advanceWord_inside (by omega), start]
  · rw [if_pos ((echoMismatch_iff _ _).2 hx), if_neg hx, if_neg hx, advanceWord_inside (by simp [start])]
    simp [raise, start]

/-- Settles O28: a TAIL word is `advanceWord` alone, inside the run or at its last word. -/
theorem tailOnlyAdvances : Obligations.TailOnlyAdvances := by
  refine ⟨fun x s busy first last => ?_, fun x s busy last => ?_⟩
  · exact (execTail_next x).2 ⟨⟨busy, by omega, by omega⟩, advanceWord_inside (by omega)⟩
  · refine (execTail_next x).2 ⟨⟨busy, by omega, by omega⟩, ?_⟩
    rw [advanceWord_last (by omega), last]

/-- R58: a PLANE word completes at each offset of its kind, and changes `WP` and the files alone. -/
theorem execPlane_eq (x : Word) {s : State} (busy : s.run = .busy) (first : 1 ≤ s.wp) (last : s.wp ≤ 30784) :
    execPlane x s = .next { s with
      wp := s.wp + 1,
      crf := planeLoop s.mask x (planeRegister s.wp) (planeRow s.wp) (List.range 32) 0 s.crf } := by
  refine execPlane_next.2 ⟨⟨busy, first, last⟩, advanceWord_inside ?_⟩
  simp only
  omega

/-- A chip with a lane has a register file in a run (10_state.md R15). -/
theorem StateInv.file_iff_lane {s : State} (inv : StateInv s) (busy : s.run = .busy) (k : Nat) :
    k < s.crf.length ↔ (lane s.mask k).isSome = true := by
  rw [inv.length_files busy, lane_isSome, decide_eq_true_iff]

/-- Settles O26: the loop's effect on each bit of each slot, for the files that a run has. -/
theorem planeOrsLaneBits : Obligations.PlaneOrsLaneBits := by
  intro x s inv busy first last
  refine ⟨_, execPlane_eq x busy first last, rfl, planeLoop_length .., fun k => (inv.file_iff_lane busy k).1,
    fun k f hf i n hi hn => ?_⟩
  have hk : k < s.crf.length := (inv.file_iff_lane busy k).2 (by simp [hf])
  exact plane_slot_bit _ _ _ _ _ hf hk hi hn

/-- Settles O27: the bit's own word is the one at `WP`, which has not been consumed before the step. -/
theorem planeSetsClearBits : Obligations.PlaneSetsClearBits := by
  intro x s t inv asm h k f hf
  obtain ⟨⟨busy, first, last⟩, rfl⟩ := execPlane_next.1 h
  obtain ⟨b, run⟩ := inv.running busy
  have register := planeRegister_lt last
  have row := planeRow_lt s.wp
  have place : planeOffset (planeRegister s.wp) (15 - (15 - planeRow s.wp)) = s.wp :=
    (planeOffset_eq_iff (by omega) first).2 ⟨rfl, by omega⟩
  have clear : (slot s.crf k (planeRegister s.wp)).map (fun v => v.getLsbD (15 - planeRow s.wp)) = some false := by
    rw [asm busy b run.raw k f hf _ register _ (by omega), place]
    simp
  have hk : k < s.crf.length := (inv.file_iff_lane busy k).2 (by simp [hf])
  refine ⟨clear, ?_⟩
  rw [slot_eq_some hk register, Option.map_some, Option.some_inj] at clear
  rw [advanceWord_crf, plane_slot_bit _ _ _ _ _ hf hk register (by omega), slot_eq_some hk register,
    Option.map_some, clear]
  simp

/-- R63 (b): the loop of a PLANE step reads the word at the lanes of the mask alone. -/
theorem planeLoop_congr {m x y : Word} (agree : ∀ f, f < 32 → m.getLsbD f = true → x.getLsbD f = y.getLsbD f)
    (i j : Nat) (crf : List ChipFile) :
    planeLoop m x i j (List.range 32) 0 crf = planeLoop m y i j (List.range 32) 0 crf := by
  refine List.ext_getElem? fun k => ?_
  rw [plane_getElem?, plane_getElem?]
  cases hf : lane m k with
  | none => rfl
  | some f =>
    obtain ⟨hf32, isSet⟩ := lane_mem hf
    simp only [agree f hf32 isSet]

/-- Settles O29: PLANE uses its word in the loop alone. -/
theorem unmaskedLanesAreIgnored : Obligations.UnmaskedLanesAreIgnored := by
  intro x y s agree
  simp only [exec, execPlane, planeLoop_congr agree]

/-- R35: bits may be ORed into a file in either order. -/
theorem orBit_comm (file : ChipFile) (i n i' n' : Nat) (v v' : Bool) :
    orBit (orBit file i' n' v') i n v = orBit (orBit file i n v) i' n' v' := by
  ext q hq b hb
  simp only [← BitVec.getLsbD_eq_getElem, orBit_getLsbD _ _ _ _ _ _ hq hb]
  exact Bool.or_right_comm ..

/-- Settles O30, file by file: a file without a lane stays, a file with one has two bits ORed into it. -/
theorem planeWordsCommute : Obligations.PlaneWordsCommute := by
  intro m x y v w crf
  refine List.ext_getElem? fun k => ?_
  simp only [plane_getElem?, Option.map_map]
  cases lane m k with
  | none => rfl
  | some f => exact congrArg (crf[k]?.map ·) (funext fun file => orBit_comm ..)

end Sys2Proof.Machine
end

section
/-! What DECODE's entry step and the stream words leave of each part of the state, and how a run starts and ends
(40_deinterleaver.md R56 to R60; 20_memory.md R34; 60_exceptions.md R103). -/

namespace Sys2Proof.Machine

open Sys2Proof.Laws

/-- R103: `D_COUNT` is due exactly when the chip count is not 4. -/
theorem countMismatch_iff (m : Word) : countMismatch m = true ↔ popcount m ≠ 4 := by simp [countMismatch]

/-- R56: at entry there are as many files as chips, with 0 in every slot. -/
theorem slot_zeroFiles (n k i : Nat) :
    slot (List.replicate n zeroFile) k i = if k < n ∧ i < 1924 then some 0 else none := by
  split
  · rename_i h
    rw [slot_eq_some (by simpa using h.1) h.2]
    simp [zeroFile]
  · rename_i h
    exact slot_eq_none (by rw [List.length_replicate]; omega)

/-- Settles O21: DECODE completes with the accepted entry, field by field. -/
theorem decodeEntryStartsRun : Obligations.DecodeEntryStartsRun := by
  intro b s idle ready size
  refine ⟨acceptRun b s, execDecode_next.2 ⟨⟨idle, ready⟩, by rw [enterRun_eq, if_pos size]⟩, ?_⟩
  have count : (acceptRun b s).countRecord =
      if popcount s.mask = 4 then none else some (BitVec.ofNat 6 (popcount s.mask)) := by
    rw [acceptRun_countRecord]
    simp only [countMismatch_iff, ne_eq, ite_not]
  simp [-acceptRun_countRecord, count, -BitVec.toNat_ofNat, toNat_popcount, slot_zeroFiles, countMismatch_iff, ready]

/-- Settles O33, for either entry. -/
theorem decodeFrame : Obligations.DecodeFrame := by
  intro b s t h
  cases completion_of_exec h with
  | accept => simp
  | reject => simp
  | result _ _ returns => cases returns

/-- What a stream word leaves of the parts of the state that no word's content can touch, and how it moves the run
(40_deinterleaver.md R57 to R60; log 4, 6). -/
structure WordTaken (s t : State) : Prop where
  busy : s.run = .busy
  mask : t.mask = s.mask
  maskWritten : t.maskWritten = s.maskWritten
  nch : t.nch = s.nch
  requests : t.requests = s.requests
  dSize : t.dSize = s.dSize
  sizeRecord : t.sizeRecord = s.sizeRecord
  dCount : t.dCount = s.dCount
  countRecord : t.countRecord = s.countRecord
  wp : t.wp = s.wp + 1
  inside : s.wp ≠ 30787 → t.run = s.run ∧ t.raw = s.raw ∧ t.reply = s.reply
  last : s.wp = 30787 → t.run = .done ∧ t.raw = none ∧ t.reply = .files s.nch

/-- R60: advancing a run takes a word, after whatever it did to the files. -/
theorem wordTaken_advanceWord {s : State} (busy : s.run = .busy) (crf : List ChipFile) :
    WordTaken s (advanceWord { s with crf := crf }) := by
  constructor
  case inside => intro h; rw [advanceWord_inside (by simpa using h)]; simp
  case last => intro h; rw [advanceWord_last (by simpa using h)]; simp
  all_goals simp [busy]

/-- An operation that only returns a result is no stream word. -/
theorem streamWord_of_onlyReturns {i : Instr} (returns : onlyReturns i = true) : streamWord i = none := by
  cases i with
  | g2b | remap | adcread | read => rfl
  | echo | plane | tail | config | decode => cases returns

/-- Every stream word that completes has taken a word. -/
theorem Completion.wordTaken {s t : State} {i : Instr} {x : Word} (done : Completion s i t)
    (stream : streamWord i = some x) : WordTaken s t := by
  cases done with
  | echo _ busy start => constructor <;> simp [busy, start]
  | plane _ busy => exact wordTaken_advanceWord busy _
  | tail _ busy => exact wordTaken_advanceWord busy s.crf
  | config | accept | reject => cases stream
  | result _ _ returns => cases (streamWord_of_onlyReturns returns).symm.trans stream

/-- R57, R59: `D_ECHO` and its record are touched by ECHO alone. -/
theorem Completion.echo_frame {s t : State} {i : Instr} {x : Word} (done : Completion s i t)
    (stream : streamWord i = some x) (other : i ≠ .echo x) : t.dEcho = s.dEcho ∧ t.echoRecord = s.echoRecord := by
  cases done with
  | echo => cases stream; exact absurd rfl other
  | plane | tail => simp
  | config | accept | reject => cases stream
  | result => exact ⟨rfl, rfl⟩

/-- R57, R59: the files are touched by PLANE alone. -/
theorem Completion.crf_frame {s t : State} {i : Instr} {x : Word} (done : Completion s i t)
    (stream : streamWord i = some x) (other : i ≠ .plane x) : t.crf = s.crf := by
  cases done with
  | plane => cases stream; exact absurd rfl other
  | tail => simp
  | config | accept | reject => cases stream
  | echo | result => rfl

/-- R58: ORing into register `i` leaves every other register. -/
theorem orBit_getElem?_ne (file : ChipFile) {i q : Nat} (n : Nat) (v : Bool) (ne : q ≠ i) :
    (orBit file i n v)[q]? = file[q]? := by
  unfold orBit
  split
  · exact Vector.getElem?_set_ne ‹_› ne.symm
  · rfl

/-- R58: a PLANE step leaves every register but its own, of every chip. -/
theorem slot_planeLoop_ne (m x : Word) {i q : Nat} (j : Nat) (crf : List ChipFile) (k : Nat) (ne : q ≠ i) :
    slot (planeLoop m x i j (List.range 32) 0 crf) k q = slot crf k q := by
  unfold slot
  rw [plane_getElem?]
  cases crf[k]? with
  | none => rfl
  | some file =>
    cases lane m k with
    | none => rfl
    | some f => exact orBit_getElem?_ne file _ _ ne

/-- Settles O31: what no stream word touches, then the flag, the files, the slots and the run by the kind of word. -/
theorem streamWordFrame : Obligations.StreamWordFrame := by
  intro i x s t kind h
  have stream : streamWord i = some x := by rcases kind with rfl | rfl | rfl <;> rfl
  have done := completion_of_exec h
  have word := done.wordTaken stream
  refine ⟨word.mask, word.maskWritten, word.nch, word.requests, word.dSize, word.sizeRecord, word.dCount,
    word.countRecord, done.echo_frame stream, done.crf_frame stream, fun k q ne => ?_, word.inside,
    fun b b' raw raw' => ?_⟩
  · by_cases plane : i = .plane x
    · subst plane
      obtain ⟨-, rfl⟩ := execPlane_next.1 h
      rw [advanceWord_crf, slot_planeLoop_ne _ _ _ _ _ ne]
    · rw [done.crf_frame stream plane]
  · by_cases last : s.wp = 30787
    · cases (word.last last).2.1.symm.trans raw'
    · obtain ⟨-, same, -⟩ := word.inside last
      obtain rfl : b = b' := Option.some_inj.1 (raw.symm.trans (same.symm.trans raw'))
      exact ⟨rfl, fun _ => rfl⟩

/-- Settles O38: of the ways to complete, the TAIL word at the last offset and the two entries alone move `RUN`. -/
theorem runsEndInOneOfTwoWays : Obligations.RunsEndInOneOfTwoWays := by
  intro i s t h moved
  cases completion_of_exec h with
  | echo | config | result => exact absurd rfl moved
  | plane x busy first last => exact absurd ((wordTaken_advanceWord busy _).inside (by omega)).1 moved
  | tail x busy =>
    have word := wordTaken_advanceWord busy s.crf
    have last : s.wp = 30787 := by
      by_contra inside
      exact moved (word.inside inside).1
    exact .inl ⟨busy, last, by simp [last], (word.last last).1, x, rfl⟩
  | accept b idle _ size => exact .inr ⟨idle, b, rfl, .inl ⟨size, acceptRun_run b s⟩⟩
  | reject b idle _ size => exact .inr ⟨idle, b, rfl, .inr ⟨size, rejectRun_run b s⟩⟩

end Sys2Proof.Machine
end

section
/-! The function of a run: its values as sums and by their bits, and which words each file depends on
(40_deinterleaver.md R61, R63). -/

namespace Sys2Proof.Machine

open Sys2Proof.Laws

/-- R61: what the function gives for a block of the right length. -/
theorem decodeFunction_of_size_eq {b : RawBlock} (size : b.size = 123152) (m : Word) :
    decodeFunction b m = ⟨decodeFiles (blockWord Config.byteOrder b) m, false, countMismatch m,
      echoMismatch m (blockWord Config.byteOrder b 0)⟩ := by
  simp [decodeFunction, sizeMismatch, size]

/-- R61: what the function gives for a block of any other length. -/
theorem decodeFunction_of_size_ne {b : RawBlock} (size : b.size ≠ 123152) (m : Word) :
    decodeFunction b m = ⟨[], true, false, false⟩ := by
  simp [decodeFunction, sizeMismatch, size]

/-- R61: there is one file for each set bit of the mask. -/
theorem length_decodeFiles (raw : Nat → Word) (m : Word) : (decodeFiles raw m).length = popcount m :=
  List.length_map _

/-- R61: the file of a chip is that of its lane. -/
theorem decodeFiles_getElem? (raw : Nat → Word) (m : Word) (k : Nat) :
    (decodeFiles raw m)[k]? = (lane m k).map (chipFileOf raw) := List.getElem?_map ..

/-- R61: a slot of the output is the value assembled from its chip's lane. -/
theorem slot_decodeFiles (raw : Nat → Word) {m : Word} {k f i : Nat} (hf : lane m k = some f) (hi : i < 1924) :
    slot (decodeFiles raw m) k i = some (chipValue raw f i) := by
  simp [slot, decodeFiles_getElem?, hf, hi, chipFileOf]

/-- R61, R46: the sixteen bits of a value fit a register, so its number is their sum. -/
theorem toNat_chipValue (raw : Nat → Word) (f i : Nat) :
    (chipValue raw f i).toNat =
      ((List.range 16).map (fun j => ((raw (planeOffset i j)).getLsbD f).toNat * 2 ^ (15 - j))).sum := by
  have bits := testBit_sum_msb_first (fun j => (raw (planeOffset i j)).getLsbD f) 16
  have fits : ((List.range 16).map (fun j => ((raw (planeOffset i j)).getLsbD f).toNat <<< (15 - j))).sum < 2 ^ 16 :=
    Nat.lt_pow_two_of_testBit _ fun n hn => by rw [bits n, decide_eq_false (by omega), Bool.false_and]
  rw [chipValue, BitVec.toNat_ofNat, Nat.mod_eq_of_lt fits]
  simp only [Nat.shiftLeft_eq]

/-- Settles O51: the two lengths, and each slot's value as a sum and by its bits. -/
theorem decodeFunctionOfBlock : Obligations.DecodeFunctionOfBlock := by
  refine ⟨fun b m size => ?_, fun b m => (decodeFunction_of_size_ne · m)⟩
  rw [decodeFunction_of_size_eq size]
  exact ⟨length_decodeFiles _ m, rfl, countMismatch_iff m, echoMismatch_iff m _, fun k f hf i hi =>
    ⟨_, slot_decodeFiles _ hf hi, toNat_chipValue .., fun n => chipValue_getLsbD _ f i n⟩⟩

/-- R63 (a): a value depends on its lane of the PLANE words alone. -/
theorem chipValue_congr {raw raw' : Nat → Word} {f i : Nat}
    (agree : ∀ w, 1 ≤ w → w ≤ 30784 → (raw w).getLsbD f = (raw' w).getLsbD f) (hi : i < 1924) :
    chipValue raw f i = chipValue raw' f i := by
  refine BitVec.eq_of_getLsbD_eq fun n hn => ?_
  obtain ⟨first, last⟩ := planeOffset_mem_range (j := 15 - n) hi (by omega)
  rw [chipValue_getLsbD _ _ _ _ hn, chipValue_getLsbD _ _ _ _ hn, agree _ first last]

/-- R63 (a): so does the whole file of the lane. -/
theorem chipFileOf_congr {raw raw' : Nat → Word} {f : Nat}
    (agree : ∀ w, 1 ≤ w → w ≤ 30784 → (raw w).getLsbD f = (raw' w).getLsbD f) :
    chipFileOf raw f = chipFileOf raw' f :=
  congrArg Vector.ofFn (funext fun i => chipValue_congr agree i.isLt)

/-- Settles O54: both streams give the file of the chip's lane. -/
theorem chipDependsOnItsLaneAlone : Obligations.ChipDependsOnItsLaneAlone := by
  intro raw raw' m k f hf agree
  rw [decodeFiles_getElem?, decodeFiles_getElem?, hf, Option.map_some, Option.map_some, chipFileOf_congr agree]

/-- Settles O55: the lane is set in the larger mask too, where its rank names the same lane. -/
theorem moreLanesKeepEveryChip : Obligations.MoreLanesKeepEveryChip := by
  intro raw m m' k f sub hf
  obtain ⟨hf32, isSet⟩ := lane_mem hf
  have isSet' : m'.getLsbD f = true := by
    rw [← sub, BitVec.getLsbD_and, Bool.and_eq_true] at isSet
    exact isSet.2
  rw [decodeFiles_getElem?, decodeFiles_getElem?, lane_rank hf32 isSet', hf]

end Sys2Proof.Machine
end

section
/-! The steps of a run one by one, that every run ends on time (40_deinterleaver.md R57 to R60, R67;
70_reset_and_hazards.md R127, R128), and that what it leaves is the function of the block (R61, R62). -/

namespace Sys2Proof.Machine

open Sys2Proof.Laws

/-- When the host's next move does not land, the step takes what the block takes of its own. -/
theorem fetch_of_not_lands {s : State} (quiet : ∀ r, s.requests.head? = some r → lands s r = false) :
    fetch s = (fetchOwn s, s.requests) := by
  rcases fetch_cases s with ⟨r, rest, moves, landed, -⟩ | own
  · cases landed.symm.trans (quiet r (by rw [moves, List.head?_cons]))
  · exact own

/-- Settles O41: the step takes the run's own word, and leaves the host's moves as they are. -/
theorem stepRunsNextWord : Obligations.StepRunsNextWord := by
  intro s b i busy raw present quiet decoded
  have own := fetch_of_not_lands quiet
  have word := fetchOwn_busy busy raw present
  have stepped := step_operation (by rw [own, word]) decoded
  rwa [own, withRequests_self] at stepped

/-- Nothing lands during an undisturbed run. -/
theorem Undisturbed.not_lands {s : State} (quiet : Undisturbed s) (busy : s.run = .busy) (r : Request)
    (first : s.requests.head? = some r) : lands s r = false := by
  simp [lands, quiet r (List.mem_of_mem_head? first), busy]

/-- R57 to R59: in a run every word completes at an offset of its kind. -/
theorem exec_decodeWord {s : State} {k : WordKind} (busy : s.run = .busy) (kind : wordKind s.wp = some k)
    (x : Word) : ∃ t, exec (decodeWord k x) s = .next t := by
  cases k with
  | echo => exact ⟨_, execEcho_next.2 ⟨⟨busy, wordKind_eq_echo_iff.1 kind⟩, rfl⟩⟩
  | plane => exact ⟨_, execPlane_next.2 ⟨⟨busy, wordKind_eq_plane_iff.1 kind⟩, rfl⟩⟩
  | tail => exact ⟨_, (execTail_next x).2 ⟨⟨busy, wordKind_eq_tail_iff.1 kind⟩, rfl⟩⟩

/-- R60, R128: a step of an undisturbed run completes as a word of the kind that stands at `WP`. -/
theorem StateInv.step_word {s : State} (inv : StateInv s) (busy : s.run = .busy) (quiet : Undisturbed s) :
    ∃ k x t, wordKind s.wp = some k ∧ step s = .next t ∧ Completion s (decodeWord k x) t := by
  obtain ⟨b, run⟩ := inv.running busy
  have inside := run.wp_lt
  have present : 4 * s.wp + 3 < b.size := by rw [run.size]; omega
  obtain ⟨k, kind⟩ := Option.ne_none_iff_exists'.1 (wordKind_eq_none_iff.not.2 inside.not_ge)
  obtain ⟨t, done⟩ := exec_decodeWord busy kind (blockWord Config.byteOrder b s.wp)
  exact ⟨k, _, t, kind, (stepRunsNextWord s b _ busy run.raw present (quiet.not_lands busy)
    (decodeOperation_word kind _)).trans done, completion_of_exec done⟩

/-- A word of any kind is a stream word. -/
@[simp] theorem streamWord_decodeWord (k : WordKind) (x : Word) : streamWord (decodeWord k x) = some x := by
  cases k <;> rfl

/-- R60: after a word the run goes on, unless it was the last one. -/
theorem WordTaken.run_eq_busy_iff {s t : State} (word : WordTaken s t) : t.run = .busy ↔ s.wp ≠ 30787 := by
  refine ⟨fun busy last => ?_, fun inside => (word.inside inside).1.trans word.busy⟩
  cases busy.symm.trans (word.last last).1

/-- A state with the same moves of the host is as undisturbed. -/
theorem Undisturbed.of_requests_eq {s t : State} (quiet : Undisturbed s) (same : t.requests = s.requests) :
    Undisturbed t := by
  rwa [Undisturbed, same]

/-- Settles O48: the step completes as a stream word, which has taken a word and left the host's moves. -/
theorem wordStepsNeverStop : Obligations.WordStepsNeverStop := by
  intro s inv busy quiet
  obtain ⟨k, x, t, -, stepped, done⟩ := inv.step_word busy quiet
  have word := done.wordTaken (streamWord_decodeWord k x)
  exact ⟨t, stepped, word.wp, word.run_eq_busy_iff, quiet.of_requests_eq word.requests⟩

/-- A run of steps that gets to a state has made its first step. -/
theorem exists_step_of_run_succ {n : Nat} {s u : State} (h : Sys2Proof.core.run (n + 1) s = .next u) :
    ∃ t, step s = .next t ∧ Sys2Proof.core.run n t = .next u := by
  cases first : step s with
  | next t => exact ⟨t, rfl, (run_succ first).symm.trans h⟩
  | fault r | refused r =>
    have stopped : Sys2Proof.core.step s = _ := first
    simp [Host.Core.run, stopped] at h

/-- What every step keeps, every run of steps keeps. -/
theorem run_keeps {P : State → Prop} (keeps : ∀ s t, P s → step s = .next t → P t) {n : Nat} {s u : State}
    (start : P s) (h : Sys2Proof.core.run n s = .next u) : P u := by
  induction n generalizing s with
  | zero => cases h; exact start
  | succ n ih =>
    obtain ⟨t, first, rest⟩ := exists_step_of_run_succ h
    exact ih (keeps s t start first) rest

/-- `u` is a state of the same run as `s`, `n` words further on. -/
structure WordsLater (n : Nat) (s u : State) : Prop where
  busy : u.run = .busy
  wp : u.wp = s.wp + n
  mask : u.mask = s.mask
  raw : u.raw = s.raw
  requests : u.requests = s.requests

/-- A word that is not the last leaves the run one word further on. -/
theorem WordsLater.next {n : Nat} {s u t : State} (later : WordsLater n s u) (word : WordTaken u t)
    (inside : u.wp ≠ 30787) : WordsLater (n + 1) s t := by
  obtain ⟨sameRun, sameRaw, -⟩ := word.inside inside
  exact ⟨sameRun.trans later.busy, by rw [word.wp, later.wp, Nat.add_assoc], word.mask.trans later.mask,
    sameRaw.trans later.raw, word.requests.trans later.requests⟩

/-- R127: before its last word an undisturbed run takes one word a step. -/
theorem StateInv.run_words {s : State} (inv : StateInv s) (busy : s.run = .busy) (quiet : Undisturbed s) (n : Nat)
    (inside : s.wp + n < 30788) : ∃ u : State, Sys2Proof.core.run n s = .next u ∧ WordsLater n s u := by
  induction n with
  | zero => exact ⟨s, rfl, busy, rfl, rfl, rfl, rfl⟩
  | succ n ih =>
    obtain ⟨u, steps, later⟩ := ih (by omega)
    obtain ⟨k, x, t, -, stepped, done⟩ := (run_keeps stepKeepsStateInvariant inv steps).step_word later.busy
      (quiet.of_requests_eq later.requests)
    refine ⟨t, (run_add steps).trans (run_succ stepped), ?_⟩
    exact later.next (done.wordTaken (streamWord_decodeWord k x)) (by rw [later.wp]; omega)

/-- R59: a TAIL word does nothing but advance the run. -/
theorem Completion.tail_eq {s t : State} {x : Word} (done : Completion s (.tail x) t) : t = advanceWord s := by
  cases done with
  | tail => rfl
  | result _ _ returns => cases returns

/-- R60, R67: an undisturbed run gets to its last word, which is a TAIL word and does nothing but end the run. -/
theorem run_to_end {s : State} (inv : StateInv s) (busy : s.run = .busy) (quiet : Undisturbed s) :
    ∃ u : State, Sys2Proof.core.run (30787 - s.wp) s = .next u ∧ WordsLater (30787 - s.wp) s u ∧ u.wp = 30787 ∧
      Sys2Proof.core.run (30788 - s.wp) s = .next (advanceWord u) := by
  obtain ⟨b, run⟩ := inv.running busy
  have inside := run.wp_lt
  obtain ⟨u, steps, later⟩ := inv.run_words busy quiet (30787 - s.wp) (by omega)
  have last : u.wp = 30787 := by rw [later.wp]; omega
  refine ⟨u, steps, later, last, ?_⟩
  obtain ⟨k, x, t, kind, stepped, done⟩ := (run_keeps stepKeepsStateInvariant inv steps).step_word later.busy
    (quiet.of_requests_eq later.requests)
  obtain rfl : k = .tail := Option.some_inj.1 (kind.symm.trans (wordKind_eq_tail_iff.2 (by omega)))
  have count : 30788 - s.wp = 30787 - s.wp + 1 := by omega
  rw [count, run_add steps, run_succ stepped, done.tail_eq]
  rfl

/-- Settles O50: the words before the last one by one, and then the end. -/
theorem everyRunEndsOnTime : Obligations.EveryRunEndsOnTime := by
  intro s inv busy quiet
  refine ⟨fun n inside => ?_, ?_⟩
  · obtain ⟨u, steps, later⟩ := inv.run_words busy quiet n inside
    exact ⟨u, steps, later.busy, later.wp⟩
  · obtain ⟨u, -, -, last, steps⟩ := run_to_end inv busy quiet
    exact ⟨_, steps, by rw [advanceWord_last (by omega)], by rw [advanceWord_wp, last]⟩

/-- The accepted entry of a run leaves its output assembled. -/
theorem assembled_acceptRun (b : RawBlock) (s : State) : Assembled (acceptRun b s) :=
  assembled_iff.2 fun _ b' _ => by simpa using filesAssembled_zero b' s.mask

/-- R61, R62: once every PLANE word has been consumed, the assembled files are those of the function. -/
theorem FilesAssembled.eq_decodeFiles {b : RawBlock} {m : Word} {w : Nat} {crf : List ChipFile}
    (asm : FilesAssembled b m w crf) (files : crf.length = popcount m) (consumed : 30785 ≤ w) :
    crf = decodeFiles (blockWord Config.byteOrder b) m := by
  refine List.ext_getElem (files.trans (length_decodeFiles _ m).symm) fun k hk hk' => ?_
  obtain ⟨f, hf⟩ : ∃ f, lane m k = some f := Option.isSome_iff_exists.1 (by simpa [lane_isSome, ← files] using hk)
  refine Vector.ext fun i hi => BitVec.eq_of_getLsbD_eq fun n hn => ?_
  have bit := asm k f hf i hi n hn
  have value := slot_decodeFiles (blockWord Config.byteOrder b) hf hi
  rw [slot_eq_some hk hi, Option.map_some, Option.some_inj] at bit
  rw [slot_eq_some hk' hi, Option.some_inj] at value
  obtain ⟨-, before⟩ := planeOffset_mem_range (j := 15 - n) hi (by omega)
  rw [bit, value, chipValue_getLsbD _ _ _ _ hn, decide_eq_true (by omega), Bool.true_and]

/-- R62: past the PLANE words, a run holds what the function of its block gives. -/
theorem Assembled.agrees {s : State} (asm : Assembled s) (inv : StateInv s) (busy : s.run = .busy)
    (consumed : 30785 ≤ s.wp) {b : RawBlock} (raw : s.raw = some b) :
    decodeFunction b s.mask = ⟨s.crf, s.dSize, s.dCount, s.dEcho⟩ := by
  obtain ⟨b', run⟩ := inv.running busy
  obtain rfl : b = b' := Option.some_inj.1 (raw.symm.trans run.raw)
  have files := (assembled_iff.1 asm busy b raw).eq_decodeFiles (inv.length_files busy) consumed
  have past : 0 < s.wp := by omega
  rw [decodeFunction_of_size_eq run.size, ← files, run.dSize, run.dCount, run.dEcho, decide_eq_true past,
    Bool.true_and]

/-- Settles O52: both invariants hold up to the last word, where they say what the files and the flags are, and the
last word leaves those as they are. -/
theorem runAgreesWithFunction : Obligations.RunAgreesWithFunction := by
  intro b s t wf size quiet h
  obtain ⟨⟨-, ready⟩, rfl⟩ := execDecode_next.1 h
  rw [enterRun_eq, if_pos size]
  have inv := stateInv_acceptRun ready wf size
  obtain ⟨u, steps, later, last, ended⟩ :=
    run_to_end inv (acceptRun_run b s) (quiet.of_requests_eq (acceptRun_requests b s))
  have invariants : StateInv u ∧ Assembled u :=
    run_keeps (P := fun s => StateInv s ∧ Assembled s)
      (fun s t ⟨inv, asm⟩ stepped =>
        ⟨stepKeepsStateInvariant s t inv stepped, stepKeepsAssembly s t inv asm stepped⟩)
      ⟨inv, assembled_acceptRun b s⟩ steps
  obtain ⟨invEnd, asmEnd⟩ := invariants
  have mask : u.mask = s.mask := later.mask.trans (acceptRun_mask b s)
  have agrees := asmEnd.agrees invEnd later.busy (by omega) (later.raw.trans (acceptRun_raw b s))
  rw [acceptRun_wp] at ended
  rw [← mask, agrees]
  refine ⟨_, ended, ?_⟩
  rw [advanceWord_last (by omega)]
  exact ⟨rfl, by rw [last], rfl, rfl, invEnd.files.symm, rfl, rfl, rfl, rfl,
    later.requests.trans (acceptRun_requests b s), rfl⟩

end Sys2Proof.Machine
end

section
/-! The Gray decoder (41_gray_decoder.md R68 to R72). R68's recursion says that B2G undoes G2B; B2G is linear and
injective, so that each law of G2B is read off the law of B2G that it mirrors. -/

namespace Sys2Proof.Machine

/-! The recursion of G2B. -/

/-- `withBit` sets its own bit alone. -/
theorem getLsbD_withBit (b : Sample) {j : Nat} (hj : j < 12) (v : Bool) (i : Nat) :
    (withBit b j v).getLsbD i = (b.getLsbD i || (decide (i = j) && v)) := by
  cases v with
  | false => simp [withBit]
  | true =>
    have one : (BitVec.ofBool true).zeroExtend 12 <<< j = BitVec.twoPow 12 j := rfl
    rw [withBit, one, BitVec.getLsbD_or, BitVec.getLsbD_twoPow]
    simp [hj, eq_comm]

/-- After `n` steps the bits from `11 - n` up meet the recursion, and the bits below are still clear. At bit 11 the
bit above is bit 12, which is false, so that the copy of bit 11 needs no case of its own. -/
theorem getLsbD_grayLoop (g : Sample) {n : Nat} (hn : n ≤ 11) (i : Nat) :
    (grayLoop g n).getLsbD i =
      (decide (11 - n ≤ i) && (g.getLsbD i ^^ (grayLoop g n).getLsbD (i + 1))) := by
  induction n generalizing i with
  | zero =>
    simp only [grayLoop, getLsbD_withBit 0 (by omega : 11 < 12)]
    obtain below | rfl | above : i < 11 ∨ i = 11 ∨ 12 ≤ i := by omega
    · simp [below.ne, Nat.not_le.2 below]
    · simp
    · simp [BitVec.getLsbD_of_ge _ _ above, show i ≠ 11 by omega, show i ≠ 10 by omega]
  | succ n ih =>
    have next : 11 - n = 10 - n + 1 := by omega
    have clear {j : Nat} (hj : j < 11 - n) : (grayLoop g n).getLsbD j = false := by
      rw [ih (by omega), decide_eq_false (by omega), Bool.false_and]
    simp only [grayLoop, getLsbD_withBit _ (by omega : 10 - n < 12), Nat.reduceSubDiff]
    obtain below | rfl | above : i < 10 - n ∨ i = 10 - n ∨ 10 - n < i := by omega
    · simp [clear (by omega : i < 11 - n), below.ne, Nat.not_le.2 below]
    · simp [clear (by omega : 10 - n < 11 - n), next]
    · simp [ih (by omega) i, above.ne', above.le, next, Nat.succ_le_of_lt above, show i + 1 ≠ 10 - n by omega]

/-- R68, uniform in the bit: bit 12 of the result is false. -/
theorem getLsbD_grayToBinary (g : Sample) (i : Nat) :
    (grayToBinary g).getLsbD i = (g.getLsbD i ^^ (grayToBinary g).getLsbD (i + 1)) := by
  simpa [grayToBinary] using getLsbD_grayLoop g (Nat.le_refl 11) i

/-! B2G and its inverse. -/

/-- R70's law of the bits, uniform in the bit: bit 12 of the operand is false. -/
theorem getLsbD_binaryToGray (b : Sample) (i : Nat) :
    (binaryToGray b).getLsbD i = (b.getLsbD i ^^ b.getLsbD (i + 1)) := by
  simp [binaryToGray, Nat.add_comm]

theorem binaryToGray_xor (x y : Sample) : binaryToGray (x ^^^ y) = binaryToGray x ^^^ binaryToGray y := by
  simp only [binaryToGray, BitVec.ushiftRight_xor_distrib]
  ac_rfl

/-- By linearity two values of one code differ by a value that is its own half, and that is 0. -/
theorem binaryToGray_injective : Function.Injective binaryToGray := by
  intro x y h
  have zero : binaryToGray (x ^^^ y) = 0#12 := by rw [binaryToGray_xor, h, BitVec.xor_self]
  have half := congrArg BitVec.toNat (BitVec.xor_eq_zero_iff.1 zero)
  rw [BitVec.toNat_ushiftRight, Nat.shiftRight_eq_div_pow] at half
  exact BitVec.xor_eq_zero_iff.1 (by bv_omega)

/-- The recursion of G2B, read as a statement about B2G. -/
@[simp] theorem binaryToGray_grayToBinary (g : Sample) : binaryToGray (grayToBinary g) = g := by
  refine BitVec.eq_of_getLsbD_eq fun i _ => ?_
  rw [getLsbD_binaryToGray, getLsbD_grayToBinary g i, Bool.xor_assoc, Bool.xor_self, Bool.xor_false]

@[simp] theorem grayToBinary_binaryToGray (x : Sample) : grayToBinary (binaryToGray x) = x :=
  binaryToGray_injective (binaryToGray_grayToBinary _)

theorem grayToBinary_injective : Function.Injective grayToBinary :=
  Function.LeftInverse.injective binaryToGray_grayToBinary

theorem grayToBinary_xor (x y : Sample) : grayToBinary (x ^^^ y) = grayToBinary x ^^^ grayToBinary y :=
  binaryToGray_injective (by simp only [binaryToGray_xor, binaryToGray_grayToBinary])

/-- Settles O1: bit 11 is the case of the recursion whose bit above is bit 12. -/
theorem grayDecoderRecursion : Obligations.GrayDecoderRecursion :=
  ⟨fun g => ⟨by rw [getLsbD_grayToBinary, BitVec.getLsbD_of_ge _ _ (Nat.le_refl 12), Bool.xor_false],
      fun i _ => getLsbD_grayToBinary g i⟩,
    fun _ _ => rfl, by decide, by decide, by decide, by decide, fun _ _ h => grayToBinary_injective h⟩

/-! The closed forms of G2B. -/

/-- R69: the recursion unrolled from bit 11 down to bit `i`, `m` bits in all. -/
theorem getLsbD_grayToBinary_eq_foldl (g : Sample) {i m : Nat} (hm : i + m = 12) :
    (grayToBinary g).getLsbD i = ((List.range m).map (fun d => g.getLsbD (i + d))).foldl xor false := by
  induction m generalizing i with
  | zero => exact BitVec.getLsbD_of_ge _ _ (by omega)
  | succ m ih =>
    have above := ih (i := i + 1) (by omega)
    simp only [Nat.add_assoc, Nat.add_comm 1] at above
    rw [getLsbD_grayToBinary, above, List.range_succ_eq_map, List.map_cons, List.map_map, List.foldl_cons,
      Bool.xor_comm false, List.foldl_assoc]
    rfl

/-- R69: `G2B(g) = g ^ (G2B(g) >> 1)`, unrolled until the shift leaves nothing. -/
theorem grayToBinary_eq_xor_shifts (g : Sample) :
    grayToBinary g = g ^^^ (g >>> 1) ^^^ (g >>> 2) ^^^ (g >>> 3) ^^^ (g >>> 4) ^^^ (g >>> 5) ^^^
      (g >>> 6) ^^^ (g >>> 7) ^^^ (g >>> 8) ^^^ (g >>> 9) ^^^ (g >>> 10) ^^^ (g >>> 11) := by
  have unroll (k : Nat) : grayToBinary g >>> k = g >>> k ^^^ grayToBinary g >>> (k + 1) := by
    refine BitVec.eq_of_getLsbD_eq fun i _ => ?_
    simp only [BitVec.getLsbD_xor, BitVec.getLsbD_ushiftRight]
    rw [getLsbD_grayToBinary, Nat.add_right_comm]
  have last : grayToBinary g >>> 12 = 0#12 := BitVec.ushiftRight_eq_zero (Nat.le_refl 12)
  rw [← BitVec.ushiftRight_zero (grayToBinary g), unroll 0, unroll 1, unroll 2, unroll 3, unroll 4, unroll 5,
    unroll 6, unroll 7, unroll 8, unroll 9, unroll 10, unroll 11, last]
  simp only [BitVec.xor_assoc, BitVec.xor_zero, BitVec.ushiftRight_zero]

/-- The code of `n + 1` low ones is the one bit where they end. -/
theorem binaryToGray_ones {n : Nat} (hn : n < 12) :
    binaryToGray (BitVec.ofNat 12 (2 ^ (n + 1) - 1)) = 1#12 <<< n := by
  revert n
  decide

/-- Settles O2: the recursion unrolled by bits and by shifts; powers of two and linearity are B2G's. -/
theorem grayClosedForms : Obligations.GrayClosedForms :=
  ⟨fun g i hi => getLsbD_grayToBinary_eq_foldl g (by omega), grayToBinary_eq_xor_shifts,
    fun n hn => by rw [← binaryToGray_ones hn, grayToBinary_binaryToGray], grayToBinary_xor⟩

/-! Consecutive codes. -/

/-- Counting up by one flips a run of low bits, the carry's: an even number flips bit 0 alone, and an odd number flips
bit 0 and what its half flips. -/
theorem exists_xor_succ_eq (x : Nat) : ∃ n, x ^^^ (x + 1) = 2 ^ (n + 1) - 1 := by
  induction x using Nat.strongRecOn with
  | ind x ih =>
    obtain ⟨y, rfl | rfl⟩ := Nat.even_or_odd' x
    · have low : 2 * y ^^^ (2 * y + 1) = 2 * (y ^^^ y) + 1 := Nat.xor_bit false y true y
      exact ⟨0, by rw [low, Nat.xor_self]; rfl⟩
    · obtain ⟨n, hn⟩ := ih y (by omega)
      have carry : (2 * y + 1) ^^^ (2 * y + 1 + 1) = 2 * (y ^^^ (y + 1)) + 1 := Nat.xor_bit true y false (y + 1)
      refine ⟨n + 1, ?_⟩
      have pos := Nat.one_le_two_pow (n := n)
      rw [carry, hn]
      omega

/-- R70: below 4095 the flipped bits of `x` and `x + 1` stay inside 12 bits. -/
theorem exists_sample_xor_succ_eq {x : Sample} (hx : x.toNat < 4095) :
    ∃ n, n < 12 ∧ x ^^^ (x + 1) = BitVec.ofNat 12 (2 ^ (n + 1) - 1) := by
  obtain ⟨n, hn⟩ := exists_xor_succ_eq x.toNat
  have succ : (x + 1).toNat = x.toNat + 1 := by bv_omega
  have flips : (x ^^^ (x + 1)).toNat = 2 ^ (n + 1) - 1 := by rw [BitVec.toNat_xor, succ, hn]
  have fits : 2 ^ (n + 1) < 2 ^ 13 := by have := (x ^^^ (x + 1)).isLt; omega
  have inside : n + 1 < 13 := (Nat.pow_lt_pow_iff_right (by omega)).1 fits
  exact ⟨n, by omega, by rw [← flips, BitVec.ofNat_toNat, BitVec.setWidth_eq]⟩

/-- Settles O3: by linearity the codes of `x` and `x + 1` differ by the code of the bits that the increment flips. -/
theorem grayInverse : Obligations.GrayInverse := by
  refine ⟨fun b => ⟨?_, fun i _ => getLsbD_binaryToGray b i⟩,
    fun x => ⟨grayToBinary_binaryToGray x, binaryToGray_grayToBinary x⟩, fun x hx => ?_⟩
  · rw [getLsbD_binaryToGray, BitVec.getLsbD_of_ge _ _ (Nat.le_refl 12), Bool.xor_false]
  · obtain ⟨n, hn, flips⟩ := exists_sample_xor_succ_eq hx
    exact ⟨n, hn, by rw [← binaryToGray_xor, flips, binaryToGray_ones hn]⟩

/-! REMAP and ADCREAD. -/

/-- R71, the three cases as numbers. -/
theorem toNat_remapValue (d : Sample) :
    (remapValue d).toNat = if d.toNat = 0 then 4096 else if d.toNat = 4 then 0 else d.toNat := by
  by_cases zero : d = 0
  · subst zero; rfl
  by_cases four : d = 4
  · subst four; rfl
  rw [remapValue, if_neg zero, if_neg four, if_neg (by bv_omega), if_neg (by bv_omega)]
  exact BitVec.toNat_setWidth_of_le (by decide)

theorem remapValue_injective : Function.Injective remapValue := by
  intro d d' h
  have same := congrArg BitVec.toNat h
  have below := d.isLt
  have below' := d'.isLt
  rw [toNat_remapValue, toNat_remapValue] at same
  exact BitVec.eq_of_toNat_eq (by split_ifs at same <;> omega)

/-- Settles O4: the values by `toNat_remapValue`; 0 and 4096 are the results of 4 and 0, and of no other value since
REMAP is injective. -/
theorem remapLaw : Obligations.RemapLaw := by
  refine ⟨rfl, rfl, fun d zero four => ?_, fun d h => ?_, fun d => remapValue_injective.eq_iff' rfl,
    fun d => remapValue_injective.eq_iff' rfl, fun d d' h => remapValue_injective h, fun _ _ => rfl⟩
  · rw [toNat_remapValue, if_neg (by bv_omega), if_neg (by bv_omega)]
  · have value : (remapValue d).toNat = 4 := congrArg BitVec.toNat h
    rw [toNat_remapValue] at value
    split_ifs at value <;> omega

/-- D8: the Gray field holds bits 11:0 of the register. -/
theorem getLsbD_grayField (r : Reg) {n : Nat} (hn : n < 12) : (grayField r).getLsbD n = r.getLsbD n := by
  simp [grayField, hn]

/-- Settles O5: ADCREAD is a function of the Gray field, whose bits are bits 11:0. -/
theorem adcReadDecodesAndRemaps : Obligations.AdcReadDecodesAndRemaps := by
  refine ⟨fun _ _ => rfl, fun r r' agree => ?_, by decide, by decide, by decide, by decide⟩
  have field : grayField r = grayField r' :=
    BitVec.eq_of_getLsbD_eq fun n hn => by rw [getLsbD_grayField r hn, getLsbD_grayField r' hn, agree n hn]
  rw [adcRead, adcRead, field]

/-! Which registers hold an ADC value (41_gray_decoder.md R73). -/

/-- The map gives a sample or one of the four diagnostic fields below 1920, and neither from there on. -/
theorem adcBearing_iff (i : Nat) : adcBearing i = true ↔ i < 1920 := by
  unfold adcBearing registerContent
  split_ifs <;> simp <;> omega

theorem registerContent_timestamp {i : Nat} (first : 1921 ≤ i) (last : i ≤ 1923) :
    registerContent i = some .timestamp := by
  simp (disch := omega) only [registerContent, if_neg, if_pos]

/-- Settles O7, by the ranges of the register map. -/
theorem adcRegistersAreBelow1920 : Obligations.AdcRegistersAreBelow1920 :=
  ⟨adcBearing_iff, rfl, fun _ => registerContent_timestamp⟩

end Sys2Proof.Machine
end

section
/-! The host's transactions CONFIG, DECODE and READ and the Gray decoder's operations: when each completes, what it
leaves, what it is refused for, and when a move of the host is served (42_host_operations.md R76 to R79;
93_implementation_defined.md U1 to U3; log 3). -/

namespace Sys2Proof.Machine

open Sys2Proof.Laws

/-! READ and its refusals (R78, D14; their names and order are log 13). -/

/-- U1: before a run has ended DONE there is nothing to read. -/
theorem execRead_not_done {k i : Nat} {s : State} (notDone : s.run ≠ .done) :
    execRead k i s = .refused .outputNotReady := by
  rw [execRead, if_neg notDone]

/-- U1: the chips end at `NCH`. -/
theorem execRead_no_chip {k i : Nat} {s : State} (done : s.run = .done) (past : s.nch.toNat ≤ k) :
    execRead k i s = .refused .noSuchChip := by
  rw [execRead, if_pos done, if_neg past.not_gt]

/-- U1: the registers of a chip end at 1924. -/
theorem execRead_no_register {k i : Nat} {s : State} (done : s.run = .done) (chip : k < s.nch.toNat)
    (past : 1924 ≤ i) : execRead k i s = .refused .noSuchRegister := by
  rw [execRead, if_pos done, if_pos chip, slot_eq_none (.inr past)]

/-- R15: under the invariant every chip below `NCH` has a file, so each of its registers has a slot. -/
theorem StateInv.exists_slot {s : State} (inv : StateInv s) {k i : Nat} (chip : k < s.nch.toNat) (reg : i < 1924) :
    ∃ v, slot s.crf k i = some v :=
  ⟨_, slot_eq_some (inv.files ▸ chip) reg⟩

/-- Settles O19: the slot exists within the precondition, and each way to be outside it has its refusal. -/
theorem readAnswersSlot : Obligations.ReadAnswersSlot := by
  refine ⟨fun k i s inv done chip reg => ?_, fun k i s outside => ?_⟩
  · obtain ⟨v, hv⟩ := inv.exists_slot chip reg
    exact ⟨v, hv, execRead_next.2 ⟨⟨done, chip⟩, v, hv, rfl⟩⟩
  · by_cases done : s.run = .done
    · by_cases chip : k < s.nch.toNat
      · exact ⟨_, execRead_no_register done chip (not_lt.1 fun reg => outside ⟨done, chip, reg⟩)⟩
      · exact ⟨_, execRead_no_chip done (not_lt.1 chip)⟩
    · exact ⟨_, execRead_not_done done⟩

/-- Settles O18: `RUN` not being BUSY is all that CONFIG asks. -/
theorem configWritesMask : Obligations.ConfigWritesMask := fun _ _ idle => execConfig_next.2 ⟨idle, rfl⟩

/-- U3: CONFIG has no place in a run. -/
theorem execConfig_busy (m : Word) {s : State} (busy : s.run = .busy) :
    execConfig m s = .refused .configWhileBusy := by
  rw [execConfig, if_pos busy]

/-- U3: nor has DECODE. -/
theorem execDecode_busy (b : RawBlock) {s : State} (busy : s.run = .busy) :
    execDecode b s = .refused .decodeWhileBusy := by
  rw [execDecode, if_pos busy]

/-- U2: DECODE needs a `MASK` written since reset. -/
theorem execDecode_no_mask (b : RawBlock) {s : State} (idle : s.run ≠ .busy) (unwritten : s.maskWritten = false) :
    execDecode b s = .refused .decodeBeforeConfig := by
  rw [execDecode, if_neg idle, if_neg (by simp [unwritten])]

/-- Settles O20: the refusals of CONFIG, DECODE and READ. -/
theorem movesTheHostDoesNotHave : Obligations.MovesTheHostDoesNotHave :=
  ⟨fun m _ => execConfig_busy m, fun b _ => execDecode_busy b, fun b _ => execDecode_no_mask b,
    fun _ _ _ => execRead_not_done, fun _ _ _ => execRead_no_chip, fun _ _ _ => execRead_no_register⟩

/-- R79: an operation that in every state only returns `v` may be repeated with no further effect. -/
theorem repeatable_of_exec_eq_answer {i : Instr} {v : Reply} (returns : ∀ s, exec i s = .next (answer v s))
    (s : State) : ∃ t, exec i s = .next t ∧ t = { s with reply := v } ∧ exec i t = .next t :=
  ⟨answer v s, returns s, rfl, returns _⟩

/-- Settles O6: the result of each of the three depends on its operand alone. -/
theorem grayUnitLeavesDeinterleaver : Obligations.GrayUnitLeavesDeinterleaver := by
  rintro i (⟨g, rfl⟩ | ⟨d, rfl⟩ | ⟨r, rfl⟩)
  · exact ⟨.binary (grayToBinary g), repeatable_of_exec_eq_answer fun _ => rfl⟩
  · exact ⟨.remapped (remapValue d), repeatable_of_exec_eq_answer fun _ => rfl⟩
  · exact ⟨.remapped (adcRead r), repeatable_of_exec_eq_answer fun _ => rfl⟩

/-- R34: a block that stays borrowed unchanged reads as before, at every byte. -/
theorem block_reads_same {s t : State} (same : t.raw = s.raw) (b b' : RawBlock) (raw : s.raw = some b)
    (raw' : t.raw = some b') : b'.size = b.size ∧ ∀ a, memRead b'.cells a = memRead b.cells a := by
  obtain rfl : b = b' := Option.some_inj.1 (raw.symm.trans (same.symm.trans raw'))
  exact ⟨rfl, fun _ => rfl⟩

/-- Settles O32: of these operations CONFIG completes by writing `MASK`, the others by returning a result alone. -/
theorem transactionFrame : Obligations.TransactionFrame := by
  intro i s t kind h
  cases completion_of_exec h with
  | echo | plane | tail | accept | reject => simp at kind
  | config m =>
    exact ⟨fun other => absurd rfl (other m), rfl, rfl, rfl, rfl, rfl, rfl, rfl, rfl, rfl, rfl, rfl, rfl,
      block_reads_same rfl⟩
  | result =>
    exact ⟨fun _ => ⟨rfl, rfl⟩, rfl, rfl, rfl, rfl, rfl, rfl, rfl, rfl, rfl, rfl, rfl, rfl, block_reads_same rfl⟩

/-- Log 3, 23: a move is served between runs, or in a run at an offset `WP` has reached. -/
theorem lands_iff {s : State} {r : Request} :
    lands s r = true ↔ s.run ≠ .busy ∨ ∃ w, r.arrival = .atOffset w ∧ w ≤ s.wp := by
  unfold lands
  cases r.arrival <;> simp

/-- When the host's next move lands, the step takes it, and leaves the others. -/
theorem fetch_of_lands {s : State} {r : Request} {rest : List Request} (moves : s.requests = r :: rest)
    (landed : lands s r = true) : fetch s = (moveFetched r.move, rest) := by
  rw [fetch, moves]
  exact if_pos landed

/-- Settles O42: the move that lands is the operation the step takes. -/
theorem stepServesHostMove : Obligations.StepServesHostMove := by
  intro s a op o rest i moves decoded due
  have fetched := fetch_of_lands moves (lands_iff.2 due)
  have stepped := step_operation (by rw [fetched]; rfl) decoded
  rwa [fetched] at stepped

end Sys2Proof.Machine
end

section
/-! The downstream context, outside the block: the edge of a roll mask, the main frame, and the channels a chip emits
(48_downstream_context.md R84 to R92; 70_reset_and_hazards.md R125; U7, log 19). -/

namespace Sys2Proof.Machine

open Sys2Proof.Laws

/-! The roll mask (R84). -/

/-- The bits listed are those set; none is set past the 13 slices. -/
@[simp] theorem mem_rollMaskBits (r : BitVec 13) (n : Nat) : n ∈ rollMaskBits r ↔ r.getLsbD n = true := by
  simp only [rollMaskBits, List.mem_filter, List.mem_range, and_iff_right_iff_imp]
  exact BitVec.lt_of_getLsbD

/-- They are listed lowest first. -/
theorem pairwise_rollMaskBits (r : BitVec 13) : (rollMaskBits r).Pairwise (· < ·) :=
  List.pairwise_lt_range.filter _

/-- The set bits of a field with two bits set. -/
theorem getLsbD_two_bits {a b n : Nat} (ha : a < 13) (hb : b < 13) :
    (1#13 <<< a ||| 1#13 <<< b).getLsbD n = true ↔ n = a ∨ n = b := by
  simp only [BitVec.getLsbD_or, BitVec.getLsbD_shiftLeft, BitVec.getLsbD_one, Bool.or_eq_true, Bool.and_eq_true,
    Bool.not_eq_true', decide_eq_true_eq, decide_eq_false_iff_not]
  omega

/-- A field has exactly two bits listed when it is the field of two set bits: a rising list is known by its members. -/
theorem rollMaskBits_eq_pair_iff {r : BitVec 13} {a b : Nat} :
    rollMaskBits r = [a, b] ↔ a < b ∧ b < 13 ∧ r = 1#13 <<< a ||| 1#13 <<< b := by
  constructor
  · intro bits
    have members : ∀ n, r.getLsbD n = true ↔ n = a ∨ n = b := fun n => by simp [← mem_rollMaskBits, bits]
    have hab : a < b := by simpa [bits] using pairwise_rollMaskBits r
    have hb : b < 13 := BitVec.lt_of_getLsbD ((members b).2 (.inr rfl))
    exact ⟨hab, hb, BitVec.eq_of_getLsbD_eq fun n _ =>
      Bool.eq_iff_iff.2 ((members n).trans (getLsbD_two_bits (hab.trans hb) hb).symm)⟩
  · rintro ⟨hab, hb, rfl⟩
    refine (pairwise_rollMaskBits _).eq_of_mem_iff (by simpa using hab) fun n => ?_
    rw [mem_rollMaskBits, getLsbD_two_bits (hab.trans hb) hb, List.mem_pair]

/-- The edge of a field whose set bits are `a` and `b`. -/
theorem rollMaskEdges_of_pair {r : BitVec 13} {a b : Nat} (bits : rollMaskBits r = [a, b]) : rollMaskEdges r =
    if a = 0 ∧ b = 12 then .ok 0 else if b - a = 1 then .ok b else .error (.malformedRollMask r) := by
  rw [rollMaskEdges, bits]
  rfl

/-- U7: a field without exactly two set bits is malformed. -/
theorem rollMaskEdges_of_no_pair {r : BitVec 13} (noPair : ∀ a b, rollMaskBits r ≠ [a, b]) :
    rollMaskEdges r = .error (.malformedRollMask r) := by
  unfold rollMaskEdges
  split
  case h_1 a b bits => exact absurd bits (noPair a b)
  case h_2 => rfl

/-- Settles O58: the field is known by the list of its set bits, which has two members or has not. -/
theorem rollMaskEdgesOfTwoBits : Obligations.RollMaskEdgesOfTwoBits := by
  refine ⟨fun a b hab hb => ?_, fun r other => rollMaskEdges_of_no_pair fun a b bits => ?_⟩
  · have adjacent : b - a = 1 ↔ b = a + 1 := by omega
    simp only [rollMaskEdges_of_pair (rollMaskBits_eq_pair_iff.2 ⟨hab, hb, rfl⟩), adjacent]
  · obtain ⟨hab, hb, two⟩ := rollMaskBits_eq_pair_iff.1 bits
    exact other a b hab hb two

/-! The main frame (R85, R86). -/

/-- A place on the ring is the remainder as an integer. -/
theorem ringMod_cast (n : Int) : (ringMod n : Int) = n % 13 :=
  Int.toNat_of_nonneg (Int.emod_nonneg n (by decide))

/-- R85 with the offset 8, for every edge. -/
theorem mainFrame_cast (last : Nat) : (mainFrame last : Int) = (12 - ((last : Int) + 5) % 13) % 13 := by
  simp only [mainFrame, ringMod_cast]
  rfl

/-- Settles O59: the closed form, its 13 values, and the range of the ring. -/
theorem mainFrameOfEdge : Obligations.MainFrameOfEdge :=
  ⟨fun last _ => mainFrame_cast last, by decide, fun base d => ringMod_lt (base + d)⟩

/-! The channels of one chip (R88, R89, R91). -/

/-- The even channels are visited in rising order. -/
theorem pairwise_evenChannels : evenChannels.Pairwise (· < ·) :=
  List.pairwise_lt_range.map _ fun _ _ h => by omega

/-- R89, R91, R125: a channel is emitted unless it is channel 60 of the chip of rank 2 or falls below the threshold. -/
theorem emitsChannel_iff {k : Nat} {file : ChipFile} {frame pedestal ch : Nat} :
    emitsChannel k file frame pedestal ch = true ↔ ¬(k = 2 ∧ ch = 60) ∧
      pedestal + 80 ≤ (adcAt file (frame * 128 + (63 - ch))).toNat := by
  rw [emitsChannel, Bool.and_eq_true, decide_eq_true_eq, keepsChannel_iff, Ne, Prod.mk.injEq]
  rfl

/-- The condition of a malformed edge is the chip's answer. -/
theorem extractChip_of_malformed (g : Nat) {c : ExtractedChip} {e : DownstreamFault} (malformed : c.edge = .error e) :
    extractChip g c = .error e := by
  rw [extractChip_eq, malformed]
  rfl

/-- Settles O60: the channels are those of the loop that `emitsChannel` keeps. -/
theorem hitsOfOneChip : Obligations.HitsOfOneChip := by
  refine ⟨fun g _ _ => extractChip_of_malformed g, fun g c last edge => ?_⟩
  have answer := extractChip_eq g c
  rw [edge] at answer
  refine ⟨_, _, pedestalOf_pedestalSamples .., answer, pairwise_evenChannels.filter _, fun ch => ?_,
    fun ch => ⟨length_hitRecord .., rfl⟩⟩
  rw [List.mem_filter, mem_evenChannels, emitsChannel_iff, and_assoc]

end Sys2Proof.Machine
end

section
/-! The conditions a run raises, in their order, and the rejection of a block of the wrong length
(60_exceptions.md R101, R102, R106; 40_deinterleaver.md R56). -/

namespace Sys2Proof.Machine

open Sys2Proof.Laws

/-- What a raised condition puts into the list of codes: its own code, once, if a value is recorded. -/
theorem map_conditionCode_record {α : Type} (condition : α → Condition) (code : Nat) (record : Option α)
    (codes : ∀ a, conditionCode (condition a) = code) :
    (record.map condition).toList.map conditionCode = if record.isSome then [code] else [] := by
  cases record with
  | none => rfl
  | some a => simp [codes]

/-- R106: the codes stand in the order of the list, each once if its condition is recorded. -/
theorem raisedConditions_codes (s : State) : (raisedConditions s).map conditionCode =
    (if s.sizeRecord.isSome then [1] else []) ++ (if s.countRecord.isSome then [2] else []) ++
      (if s.echoRecord.isSome then [3] else []) := by
  rw [raisedConditions, List.map_append, List.map_append, map_conditionCode_record .size 1 _ fun _ => rfl,
    map_conditionCode_record .count 2 _ fun _ => rfl, map_conditionCode_record .echo 3 _ fun _ => rfl]

/-- R106, D9: a run that raised `X_SIZE` was rejected, and raised nothing else. -/
theorem StateInv.size_excludes {s : State} (inv : StateInv s) (size : s.dSize = true) :
    s.dCount = false ∧ s.dEcho = false := by
  have run := inv.run
  cases h : s.run with
  | idle | busy | done => simp [RunInv, h, size] at run
  | rejected =>
    simp only [RunInv, h] at run
    obtain ⟨-, -, -, -, count, echo⟩ := run
    exact ⟨count, echo⟩

/-- Settles O39: the flags say which codes are in the list, and `D_SIZE` excludes the other two. -/
theorem conditionsRaisedInOrder : Obligations.ConditionsRaisedInOrder := by
  intro s inv
  rw [raisedConditions_codes, inv.sizeRecord, inv.countRecord, inv.echoRecord]
  cases size : s.dSize with
  | true =>
    obtain ⟨count, echo⟩ := inv.size_excludes size
    simp [count, echo]
  | false => cases s.dCount <;> cases s.dEcho <;> decide

/-- R102: the length recorded is in words, for a block of whole words. -/
theorem rawLen_of_whole {b : RawBlock} (whole : b.size % 4 = 0) : rawLen b = b.size / 4 := if_pos whole

/-- R56, R102: entry of a run on a block of the wrong length is the rejection. -/
theorem enterRun_of_size_ne {b : RawBlock} (s : State) (size : b.size ≠ 123152) : enterRun b s = rejectRun b s := by
  rw [enterRun_eq, if_neg size]

/-- Settles O22: DECODE completes with the rejected entry, field by field. -/
theorem wrongLengthIsRejected : Obligations.WrongLengthIsRejected := by
  intro b s idle ready size
  refine ⟨rejectRun b s, execDecode_next.2 ⟨⟨idle, ready⟩, enterRun_of_size_ne s size⟩, ?_⟩
  simp +contextual [ready, rawLen_of_whole]

/-- R102: the rejected entry takes nothing but the length from the block. -/
theorem rejectRun_eq_of_size_eq {b b' : RawBlock} (s : State) (same : b'.size = b.size) :
    rejectRun b s = rejectRun b' s := by
  rw [rejectRun, rejectRun, rawLen, rawLen, same]

/-- Settles O23: both entries are rejections, and a rejection depends on the length alone. -/
theorem rejectionReadsNoWord : Obligations.RejectionReadsNoWord := by
  intro b b' s size same
  have entry : enterRun b s = enterRun b' s := by
    rw [enterRun_of_size_ne s size, enterRun_of_size_ne s (same.trans_ne size), rejectRun_eq_of_size_eq s same]
  simp only [exec, execDecode, entry]

end Sys2Proof.Machine
end

section
/-! The two steps that take no operation: the reset, and waiting for the host (70_reset_and_hazards.md R114 to R116;
D10, log 9, 11). -/

namespace Sys2Proof.Machine

open Sys2Proof.Laws

/-- R114: a step whose fetch gives the reset resets the instance, on the moves that are left. -/
theorem step_reset {s : State} (taken : (fetch s).1 = .reset) :
    step s = .next (resetInstance (withRequests (fetch s).2 s)) := by
  rw [step, taken]
  rfl

/-- Log 9: a step whose fetch gives nothing changes only the moves that are left. -/
theorem step_idle {s : State} (taken : (fetch s).1 = .idle) : step s = .next (withRequests (fetch s).2 s) := by
  rw [step, taken]
  rfl

/-- With no run in progress there is no word to take. -/
theorem fetchOwn_not_busy {s : State} (idle : s.run ≠ .busy) : fetchOwn s = .idle := if_neg idle

/-- Settles O43: the step is the reset of the instance, whatever the state, with the host's later moves left. -/
theorem resetAbandonsRun : Obligations.ResetAbandonsRun := by
  intro s a rest moves due
  have fetched := fetch_of_lands moves (lands_iff.2 due)
  have stepped := step_reset (by rw [fetched]; rfl)
  rw [fetched] at stepped
  exact ⟨_, stepped, rfl, rfl, rfl, rfl, rfl, rfl, rfl, rfl, rfl, rfl⟩

/-- Settles O44: the host has no move to land, and the block no word to take. -/
theorem instanceWaitsForHost : Obligations.InstanceWaitsForHost := by
  intro s idle noMove
  have own : fetch s = (fetchOwn s, s.requests) := fetch_of_not_lands (by simp [noMove])
  have stepped := step_idle (by rw [own, fetchOwn_not_busy idle])
  rwa [own, withRequests_self] at stepped

end Sys2Proof.Machine
end

section
/-! The two byte orders of a raw word compared lane by lane (92_eei_decisions.md D6). -/

namespace Sys2Proof.Machine

/-- The big-endian word of four bytes is the little-endian word of the same bytes in reverse. -/
theorem wordOfBytes_big (b0 b1 b2 b3 : Byte) : wordOfBytes .big b0 b1 b2 b3 = wordOfBytes .little b3 b2 b1 b0 := rfl

/-- D6: in big-endian order the byte at offset `n` from the lowest address fills the place that little-endian order
gives to the byte at offset `3 - n`. -/
theorem getLsbD_wordOfBytes_big (byteAt : Nat → Byte) {n q : Nat} (hn : n < 4) (hq : q < 8) :
    (wordOfBytes .big (byteAt 0) (byteAt 1) (byteAt 2) (byteAt 3)).getLsbD (8 * n + q) =
      (byteAt (3 - n)).getLsbD q := by
  rw [wordOfBytes_big]
  exact getLsbD_wordOfBytes_little (fun k => byteAt (3 - k)) hn hq

/-- XOR with 24 flips the two bits of a lane that number its byte, and keeps the three that number its bit there. -/
theorem lane_xor_24 : ∀ n < 4, ∀ q < 8, (8 * n + q) ^^^ 24 = 8 * (3 - n) + q := by decide

/-- The lane `f XOR 24` has the bit number of `f` in the byte that mirrors the byte of `f`. -/
theorem getLsbD_wordOfBytes_big_eq_little (byteAt : Nat → Byte) {f : Nat} (hf : f < 32) :
    (wordOfBytes .big (byteAt 0) (byteAt 1) (byteAt 2) (byteAt 3)).getLsbD f =
      (wordOfBytes .little (byteAt 0) (byteAt 1) (byteAt 2) (byteAt 3)).getLsbD (f ^^^ 24) := by
  obtain ⟨n, q, hn, hq, rfl⟩ : ∃ n q, n < 4 ∧ q < 8 ∧ f = 8 * n + q :=
    ⟨f / 8, f % 8, by omega, by omega, (Nat.div_add_mod f 8).symm⟩
  rw [lane_xor_24 n hn q hq, getLsbD_wordOfBytes_big byteAt hn hq,
    getLsbD_wordOfBytes_little byteAt (n := 3 - n) (by omega) hq]

/-- Settles O13: both words are made of the same four bytes of the block. -/
theorem byteOrderPermutesLanes : Obligations.ByteOrderPermutesLanes :=
  fun b w _ hf => getLsbD_wordOfBytes_big_eq_little (fun n => memRead b.cells (4 * w + n)) hf

end Sys2Proof.Machine
end
